-- ==== Sys2Proof/Word.lean ====
section
/-! DEFINITION. The plain types of the machine's values (00_scope.md R3, R4; 10_state.md R5). All values are unsigned.
No repair can mend this file, so it holds widths only. -/

namespace Sys2Proof

/-- An 8-bit value: a V register, a timer, a byte of `MEM`. -/
abbrev Byte := BitVec 8

/-- A 16-bit value: an instruction word, `I`, `PC`, a stack slot, the `KEYS` mask. -/
abbrev Word := BitVec 16

/-- A 4-bit field of an instruction word (R32: `x`, `y`, `n`, and the top nibble). -/
abbrev Nibble := BitVec 4

/-- The 12-bit address field `nnn` of an instruction word (R32). -/
abbrev Addr := BitVec 12

/-- The number of a general register: `V0` to `VF` (R6). -/
abbrev Reg := Fin 16

/-- `VF`, the flag register (R7). -/
abbrev VF : Reg := 15

end Sys2Proof
end

