-- ==== Sys2Proof/Config.lean ====
section
/-! DEFINITION. The parameters of the hardware (00_scope.md R3) at the values the spec takes, and the free values: what
the host supplies to a run, which no rule constrains. -/

namespace Sys2Proof.Config

/-- `MEM_SIZE` (R3). -/
def memSize : Nat := 4096

/-- `PC_START`, the reset vector and load address (R3, R19). -/
def pcStart : Nat := 0x200

/-- `STACK_DEPTH` (R3, R10). -/
def stackDepth : Nat := 16

/-- `FB_W` (R3, R13; PRESUMED by the spec, D5, log entry 12). -/
def fbW : Nat := 64

/-- `FB_H` (R3, R13; PRESUMED by the spec, D5, log entry 12). -/
def fbH : Nat := 32

/-- `KEY_COUNT` (R3). -/
def keyCount : Nat := 16

/-- `GLYPH_BYTES` (R3). -/
def glyphBytes : Nat := 5

/-- `FONT[0..79]` (R19; PRESUMED by the spec, D4, log entry 11): sixteen glyphs of five bytes, top row first. -/
def font : List Byte :=
  [ 0xF0, 0x90, 0x90, 0x90, 0xF0,
    0x20, 0x60, 0x20, 0x20, 0x70,
    0xF0, 0x10, 0xF0, 0x80, 0xF0,
    0xF0, 0x10, 0xF0, 0x10, 0xF0 ] ++
  [ 0x90, 0x90, 0xF0, 0x10, 0x10,
    0xF0, 0x80, 0xF0, 0x10, 0xF0,
    0xF0, 0x80, 0xF0, 0x90, 0xF0,
    0xF0, 0x10, 0x20, 0x40, 0x40 ] ++
  [ 0xF0, 0x90, 0xF0, 0x90, 0xF0,
    0xF0, 0x90, 0xF0, 0x10, 0xF0,
    0xF0, 0x90, 0xF0, 0x90, 0x90,
    0xE0, 0x90, 0xE0, 0x90, 0xE0 ] ++
  [ 0xF0, 0x80, 0x80, 0x80, 0xF0,
    0xE0, 0x90, 0x90, 0x90, 0xE0,
    0xF0, 0x80, 0xF0, 0x80, 0xF0,
    0xF0, 0x80, 0xF0, 0x80, 0x80 ]

/-- The byte of `MEM` at `a` right after Reset (R16, R19): the font at 0 to 79, zero elsewhere. -/
def resetByte (a : Nat) : Byte := font.getD a 0

/-- The `KEYS` argument of the Step with the given number (R15, D23): a free value, log entry 1. -/
opaque keysAt : Nat → Word

/-- The `RAND` argument of the Step with the given number (R15, D23): a free value, log entry 1. -/
opaque randAt : Nat → Byte

/-- How many Ticks the host issues after the Step with the given number and before the next one (R106, D17): a free
value, log entry 2. -/
opaque ticksAfter : Nat → Nat

/-- Whether the host issues a ClearDirty after the Step with the given number and before the next one (R107): a free
value, log entry 2. -/
opaque clearsAfter : Nat → Bool

end Sys2Proof.Config
end

