-- ==== Sys2Proof/Syntax.lean ====
section
/-! DEFINITION. The instruction set: one constructor per row of spec/opcode_table.json (30_encoding.md R38), in the
table's order. Each operand has exactly the width of its field, and every value of a field is legal (R37), so every
term of `Instr` is an instruction of the machine. -/

namespace Sys2Proof

/-- The 34 instructions of 30_encoding.md R38. `x` and `y` are register numbers, `kk` an immediate byte, `nnn` a
12-bit address, `n` a row count. The `y` field of the two shifts is decoded and ignored (R36, R40), so they carry
none. -/
inductive Instr where
  | cls
  | ret
  | jp (nnn : Addr)
  | call (nnn : Addr)
  | seImm (x : Reg) (kk : Byte)
  | sneImm (x : Reg) (kk : Byte)
  | seReg (x y : Reg)
  | sneReg (x y : Reg)
  | ldImm (x : Reg) (kk : Byte)
  | ldReg (x y : Reg)
  | addImm (x : Reg) (kk : Byte)
  | orReg (x y : Reg)
  | andReg (x y : Reg)
  | xorReg (x y : Reg)
  | addReg (x y : Reg)
  | sub (x y : Reg)
  | subn (x y : Reg)
  | shr (x : Reg)
  | shl (x : Reg)
  | ldI (nnn : Addr)
  | jpV0 (nnn : Addr)
  | rnd (x : Reg) (kk : Byte)
  | drw (x y : Reg) (n : Nibble)
  | skp (x : Reg)
  | sknp (x : Reg)
  | ldVxDt (x : Reg)
  | ldVxK (x : Reg)
  | ldDtVx (x : Reg)
  | ldStVx (x : Reg)
  | addI (x : Reg)
  | ldF (x : Reg)
  | ldB (x : Reg)
  | ldMemVx (x : Reg)
  | ldVxMem (x : Reg)
  deriving DecidableEq, Repr

end Sys2Proof
end

