-- ==== Sys2Proof/WellFormed.lean ====
section
/-! DEFINITION. What can be ill-formed. A term of `Instr` cannot: its operand types are the fields' widths (R37). A record
of the decoder's outputs can break the overlap laws of 30_encoding.md R32, and an assembler line of R42 can name a
register above VF, hold a number wider than its field, or have operand kinds that select no instruction. -/

namespace Sys2Proof

/-- The outputs of the Instruction Decoder (R32): its five fields, and the top nibble the dispatch uses. -/
structure Fields where
  top : Nibble
  nnn : Addr
  x   : Nibble
  y   : Nibble
  n   : Nibble
  kk  : Byte
  deriving DecidableEq, Repr

/-- R32: the fields overlap, `nnn = x*256 + kk` and `kk = y*16 + n`. -/
def Fields.wellFormed (f : Fields) : Bool :=
  f.nnn == f.x ++ f.kk && f.kk == f.y ++ f.n

/-- The mnemonics of the assembler notation (R42). -/
inductive Mnemonic where
  | cls | ret | jp | call | se | sne | ld | add | or | and | xor | sub | subn | shr | shl | rnd | drw | skp | sknp
  deriving DecidableEq, Repr

/-- The operands of the assembler notation (R42), in its order: a register by its number, `I`, `[I]`, `DT`, `ST`, `K`,
`F`, `B`, and a number for `kk`, `nnn` or `n`. -/
inductive Operand where
  | v (number : Nat)
  | i
  | atI
  | dt
  | st
  | k
  | f
  | b
  | num (value : Nat)
  deriving DecidableEq, Repr

/-- A line of assembler: a mnemonic and its operands, the destination first (R42). -/
structure AsmLine where
  mnemonic : Mnemonic
  operands : List Operand
  deriving DecidableEq, Repr

/-- A register operand names one of `V0` to `VF` (R6). -/
def Operand.registerExists : Operand → Bool
  | .v number => number < 16
  | _ => true

/-- The operand kinds select a row of R38 (R42: the mnemonic and the operand kinds together select it). -/
def AsmLine.selectsRow (l : AsmLine) : Bool :=
  match l.mnemonic, l.operands with
  | .cls, [] | .ret, [] => true
  | .jp, [.num _] | .call, [.num _] => true
  | .jp, [.v r, .num _] => r == 0
  | .se, [.v _, .num _] | .sne, [.v _, .num _] | .se, [.v _, .v _] | .sne, [.v _, .v _] => true
  | .ld, [.v _, .num _] | .ld, [.v _, .v _] | .ld, [.i, .num _] => true
  | .ld, [.v _, .dt] | .ld, [.v _, .k] | .ld, [.dt, .v _] | .ld, [.st, .v _] => true
  | .ld, [.f, .v _] | .ld, [.b, .v _] | .ld, [.atI, .v _] | .ld, [.v _, .atI] => true
  | .add, [.v _, .num _] | .add, [.v _, .v _] | .add, [.i, .v _] => true
  | .or, [.v _, .v _] | .and, [.v _, .v _] | .xor, [.v _, .v _] | .sub, [.v _, .v _] | .subn, [.v _, .v _] => true
  | .shr, [.v _] | .shl, [.v _] | .skp, [.v _] | .sknp, [.v _] => true
  | .rnd, [.v _, .num _] => true
  | .drw, [.v _, .v _, .num _] => true
  | _, _ => false

/-- How many values the number of a line's field has: 4096 for `nnn`, 256 for `kk`, 16 for `n` (R32). -/
def AsmLine.numberBound (l : AsmLine) : Nat :=
  match l.mnemonic, l.operands with
  | .jp, _ | .call, _ | .ld, .i :: _ => 4096
  | .drw, _ => 16
  | _, _ => 256

/-- Every number of the line fits its field (R37: a field is used as it stands). -/
def AsmLine.numbersFit (l : AsmLine) : Bool :=
  l.operands.all fun o => match o with
    | .num value => value < l.numberBound
    | _ => true

/-- An assembler line that is an instruction of the machine (R42, R37). -/
def AsmLine.wellFormed (l : AsmLine) : Bool :=
  l.selectsRow && l.operands.all Operand.registerExists && l.numbersFit

end Sys2Proof
end

