-- ==== Sys2Proof/Decode.lean ====
section
/-! DEFINITION. The Instruction Decoder (30_encoding.md R31 to R33), the dispatch (R35, R38 to R40), the encoder (R36), the
opcode map of R38 as a table, and the assembler notation (R42). The numeric opcodes are the spec's own (D1, log entry
10), and so is the choice of the secondary keys (D2). -/

namespace Sys2Proof

/-! ### The decoder -/

/-- The register a 4-bit field names (R37: every value is legal). -/
def nibbleReg (b : Nibble) : Reg := b.toFin

/-- The 4-bit field that names a register. -/
def regNibble (x : Reg) : Nibble := BitVec.ofFin x

/-- The Instruction Decoder (R32, R33): total, and a function of the word alone. -/
def decodeFields (op : Word) : Fields :=
  { top := op.extractLsb' 12 4
    nnn := op.extractLsb' 0 12
    x   := op.extractLsb' 8 4
    y   := op.extractLsb' 4 4
    n   := op.extractLsb' 0 4
    kk  := op.extractLsb' 0 8 }

/-- The register named by the `x` field. -/
def Fields.rx (f : Fields) : Reg := nibbleReg f.x

/-- The register named by the `y` field. -/
def Fields.ry (f : Fields) : Reg := nibbleReg f.y

/-! ### The dispatch -/

/-- Family 0: the secondary key is the low byte; bits 11:8 are ignored (R35, R40). There is no `0nnn` (R39, D3). -/
def dispatchFamily0 (f : Fields) : Option Instr :=
  match f.kk with
  | 0xE0#8 => some .cls
  | 0xEE#8 => some .ret
  | _ => none

/-- Family 8: the secondary key is the low nibble (R35). -/
def dispatchFamily8 (f : Fields) : Option Instr :=
  match f.n with
  | 0x0#4 => some (.ldReg f.rx f.ry)
  | 0x1#4 => some (.orReg f.rx f.ry)
  | 0x2#4 => some (.andReg f.rx f.ry)
  | 0x3#4 => some (.xorReg f.rx f.ry)
  | 0x4#4 => some (.addReg f.rx f.ry)
  | 0x5#4 => some (.sub f.rx f.ry)
  | 0x6#4 => some (.shr f.rx)
  | 0x7#4 => some (.subn f.rx f.ry)
  | 0xE#4 => some (.shl f.rx)
  | _ => none

/-- Family E: the secondary key is the low byte (R35). -/
def dispatchFamilyE (f : Fields) : Option Instr :=
  match f.kk with
  | 0x9E#8 => some (.skp f.rx)
  | 0xA1#8 => some (.sknp f.rx)
  | _ => none

/-- Family F: the secondary key is the low byte (R35). -/
def dispatchFamilyF (f : Fields) : Option Instr :=
  match f.kk with
  | 0x07#8 => some (.ldVxDt f.rx)
  | 0x0A#8 => some (.ldVxK f.rx)
  | 0x15#8 => some (.ldDtVx f.rx)
  | 0x18#8 => some (.ldStVx f.rx)
  | 0x1E#8 => some (.addI f.rx)
  | 0x29#8 => some (.ldF f.rx)
  | 0x33#8 => some (.ldB f.rx)
  | 0x55#8 => some (.ldMemVx f.rx)
  | 0x65#8 => some (.ldVxMem f.rx)
  | _ => none

/-- The dispatch (R35): a switch on the top nibble, and for families 0, 8, E and F a secondary switch. `none` is the
`InvalidOpcode` condition (R39). Families 5 and 9 ignore the low nibble (R40). -/
def dispatch (f : Fields) : Option Instr :=
  match f.top with
  | 0x0#4 => dispatchFamily0 f
  | 0x1#4 => some (.jp f.nnn)
  | 0x2#4 => some (.call f.nnn)
  | 0x3#4 => some (.seImm f.rx f.kk)
  | 0x4#4 => some (.sneImm f.rx f.kk)
  | 0x5#4 => some (.seReg f.rx f.ry)
  | 0x6#4 => some (.ldImm f.rx f.kk)
  | 0x7#4 => some (.addImm f.rx f.kk)
  | 0x8#4 => dispatchFamily8 f
  | 0x9#4 => some (.sneReg f.rx f.ry)
  | 0xA#4 => some (.ldI f.nnn)
  | 0xB#4 => some (.jpV0 f.nnn)
  | 0xC#4 => some (.rnd f.rx f.kk)
  | 0xD#4 => some (.drw f.rx f.ry f.n)
  | 0xE#4 => dispatchFamilyE f
  | _ => dispatchFamilyF f -- 0xF, the one value left

/-- Decode and dispatch of one word (R45). -/
def decodeWord (op : Word) : Option Instr := dispatch (decodeFields op)

/-- Why a string of bytes is no instruction. -/
inductive DecodeError where
  /-- The word selects no row of the opcode map (R39). -/
  | invalidOpcode (op : Word)
  /-- Fewer than the two bytes of an instruction (R31) are left. -/
  | truncated
  deriving DecidableEq, Repr

/-- The word made of two consecutive bytes, the one at the lower address first (R21: big-endian). -/
def bigEndian (high low : Byte) : Word := high ++ low

/-- Reads one instruction from a string of bytes, and gives the bytes that follow it (R31: always two bytes). -/
def decode : List Byte → Except DecodeError (Instr × List Byte)
  | high :: low :: rest =>
    match decodeWord (bigEndian high low) with
    | some i => .ok (i, rest)
    | none => .error (.invalidOpcode (bigEndian high low))
  | _ => .error .truncated

/-- The two bytes of an instruction whose bits spec/opcode_table.json numbers as the value `w` of `nbits` bits: bit 15
is the top bit of the word, and its high byte lies lower in memory (R21, R31). -/
def tableWordBytes (nbits w : Nat) : Byte × Byte :=
  let op := w % 2 ^ nbits
  (BitVec.ofNat 8 (op / 256), BitVec.ofNat 8 op)

/-- The instruction the decoder reads from the bits `w` of an opcode-table row. -/
def decodeTableWord (nbits w : Nat) : Option Instr :=
  match decode [(tableWordBytes nbits w).1, (tableWordBytes nbits w).2] with
  | .ok (i, _) => some i
  | .error _ => none

/-! ### The encoder -/

/-- Format NNN (R34, R36). -/
def wordNNN (top : Nibble) (nnn : Addr) : Word := top ++ nnn

/-- Formats XKK and X (R34, R36); in format X the low byte is the sub-opcode. -/
def wordXKK (top : Nibble) (x : Reg) (kk : Byte) : Word := top ++ regNibble x ++ kk

/-- Formats XYN and XY (R34, R36); in format XY the low nibble is the sub-opcode or zero. -/
def wordXYN (top : Nibble) (x y : Reg) (n : Nibble) : Word := top ++ regNibble x ++ regNibble y ++ n

/-- The canonical word of an instruction (R36): its `match` value with its operands put in, ignored bits zero. -/
def encode : Instr → Word
  | .cls => 0x00E0
  | .ret => 0x00EE
  | .jp nnn => wordNNN 0x1 nnn
  | .call nnn => wordNNN 0x2 nnn
  | .seImm x kk => wordXKK 0x3 x kk
  | .sneImm x kk => wordXKK 0x4 x kk
  | .seReg x y => wordXYN 0x5 x y 0x0
  | .sneReg x y => wordXYN 0x9 x y 0x0
  | .ldImm x kk => wordXKK 0x6 x kk
  | .ldReg x y => wordXYN 0x8 x y 0x0
  | .addImm x kk => wordXKK 0x7 x kk
  | .orReg x y => wordXYN 0x8 x y 0x1
  | .andReg x y => wordXYN 0x8 x y 0x2
  | .xorReg x y => wordXYN 0x8 x y 0x3
  | .addReg x y => wordXYN 0x8 x y 0x4
  | .sub x y => wordXYN 0x8 x y 0x5
  | .subn x y => wordXYN 0x8 x y 0x7
  | .shr x => wordXYN 0x8 x 0 0x6
  | .shl x => wordXYN 0x8 x 0 0xE
  | .ldI nnn => wordNNN 0xA nnn
  | .jpV0 nnn => wordNNN 0xB nnn
  | .rnd x kk => wordXKK 0xC x kk
  | .drw x y n => wordXYN 0xD x y n
  | .skp x => wordXKK 0xE x 0x9E
  | .sknp x => wordXKK 0xE x 0xA1
  | .ldVxDt x => wordXKK 0xF x 0x07
  | .ldVxK x => wordXKK 0xF x 0x0A
  | .ldDtVx x => wordXKK 0xF x 0x15
  | .ldStVx x => wordXKK 0xF x 0x18
  | .addI x => wordXKK 0xF x 0x1E
  | .ldF x => wordXKK 0xF x 0x29
  | .ldB x => wordXKK 0xF x 0x33
  | .ldMemVx x => wordXKK 0xF x 0x55
  | .ldVxMem x => wordXKK 0xF x 0x65

/-- The two bytes of an instruction in memory order (R36, R21). -/
def encodeBytes (i : Instr) : List Byte :=
  [(encode i).extractLsb' 8 8, (encode i).extractLsb' 0 8]

/-! ### The opcode map as a table -/

/-- A row of the opcode map (R38): a word `w` selects the row iff `w and mask = pattern`. -/
structure OpRow where
  pattern : Word
  mask    : Word
  build   : Fields → Instr

/-- `w` selects the row (R38). -/
def OpRow.selects (r : OpRow) (w : Word) : Bool := w &&& r.mask == r.pattern

/-- The opcode map (R38), in the spec's order. -/
def opcodeMap : List OpRow :=
  [ ⟨0x00E0, 0xF0FF, fun _ => .cls⟩,
    ⟨0x00EE, 0xF0FF, fun _ => .ret⟩,
    ⟨0x1000, 0xF000, fun f => .jp f.nnn⟩,
    ⟨0x2000, 0xF000, fun f => .call f.nnn⟩,
    ⟨0x3000, 0xF000, fun f => .seImm f.rx f.kk⟩,
    ⟨0x4000, 0xF000, fun f => .sneImm f.rx f.kk⟩,
    ⟨0x5000, 0xF000, fun f => .seReg f.rx f.ry⟩,
    ⟨0x9000, 0xF000, fun f => .sneReg f.rx f.ry⟩,
    ⟨0x6000, 0xF000, fun f => .ldImm f.rx f.kk⟩,
    ⟨0x8000, 0xF00F, fun f => .ldReg f.rx f.ry⟩,
    ⟨0x7000, 0xF000, fun f => .addImm f.rx f.kk⟩ ] ++
  [ ⟨0x8001, 0xF00F, fun f => .orReg f.rx f.ry⟩,
    ⟨0x8002, 0xF00F, fun f => .andReg f.rx f.ry⟩,
    ⟨0x8003, 0xF00F, fun f => .xorReg f.rx f.ry⟩,
    ⟨0x8004, 0xF00F, fun f => .addReg f.rx f.ry⟩,
    ⟨0x8005, 0xF00F, fun f => .sub f.rx f.ry⟩,
    ⟨0x8007, 0xF00F, fun f => .subn f.rx f.ry⟩,
    ⟨0x8006, 0xF00F, fun f => .shr f.rx⟩,
    ⟨0x800E, 0xF00F, fun f => .shl f.rx⟩,
    ⟨0xA000, 0xF000, fun f => .ldI f.nnn⟩,
    ⟨0xB000, 0xF000, fun f => .jpV0 f.nnn⟩,
    ⟨0xC000, 0xF000, fun f => .rnd f.rx f.kk⟩,
    ⟨0xD000, 0xF000, fun f => .drw f.rx f.ry f.n⟩ ] ++
  [ ⟨0xE09E, 0xF0FF, fun f => .skp f.rx⟩,
    ⟨0xE0A1, 0xF0FF, fun f => .sknp f.rx⟩,
    ⟨0xF007, 0xF0FF, fun f => .ldVxDt f.rx⟩,
    ⟨0xF00A, 0xF0FF, fun f => .ldVxK f.rx⟩,
    ⟨0xF015, 0xF0FF, fun f => .ldDtVx f.rx⟩,
    ⟨0xF018, 0xF0FF, fun f => .ldStVx f.rx⟩,
    ⟨0xF01E, 0xF0FF, fun f => .addI f.rx⟩,
    ⟨0xF029, 0xF0FF, fun f => .ldF f.rx⟩,
    ⟨0xF033, 0xF0FF, fun f => .ldB f.rx⟩,
    ⟨0xF055, 0xF0FF, fun f => .ldMemVx f.rx⟩,
    ⟨0xF065, 0xF0FF, fun f => .ldVxMem f.rx⟩ ]

/-- The instruction the opcode map gives a word: that of the row the word selects (R38). -/
def tableSelect (op : Word) : Option Instr :=
  (opcodeMap.find? fun r => r.selects op).map fun r => r.build (decodeFields op)

/-- The pattern and the mask of an instruction's own row of the opcode map (R38). -/
def rowOf : Instr → Word × Word
  | .cls => (0x00E0, 0xF0FF)
  | .ret => (0x00EE, 0xF0FF)
  | .jp _ => (0x1000, 0xF000)
  | .call _ => (0x2000, 0xF000)
  | .seImm _ _ => (0x3000, 0xF000)
  | .sneImm _ _ => (0x4000, 0xF000)
  | .seReg _ _ => (0x5000, 0xF000)
  | .sneReg _ _ => (0x9000, 0xF000)
  | .ldImm _ _ => (0x6000, 0xF000)
  | .ldReg _ _ => (0x8000, 0xF00F)
  | .addImm _ _ => (0x7000, 0xF000)
  | .orReg _ _ => (0x8001, 0xF00F)
  | .andReg _ _ => (0x8002, 0xF00F)
  | .xorReg _ _ => (0x8003, 0xF00F)
  | .addReg _ _ => (0x8004, 0xF00F)
  | .sub _ _ => (0x8005, 0xF00F)
  | .subn _ _ => (0x8007, 0xF00F)
  | .shr _ => (0x8006, 0xF00F)
  | .shl _ => (0x800E, 0xF00F)
  | .ldI _ => (0xA000, 0xF000)
  | .jpV0 _ => (0xB000, 0xF000)
  | .rnd _ _ => (0xC000, 0xF000)
  | .drw _ _ _ => (0xD000, 0xF000)
  | .skp _ => (0xE09E, 0xF0FF)
  | .sknp _ => (0xE0A1, 0xF0FF)
  | .ldVxDt _ => (0xF007, 0xF0FF)
  | .ldVxK _ => (0xF00A, 0xF0FF)
  | .ldDtVx _ => (0xF015, 0xF0FF)
  | .ldStVx _ => (0xF018, 0xF0FF)
  | .addI _ => (0xF01E, 0xF0FF)
  | .ldF _ => (0xF029, 0xF0FF)
  | .ldB _ => (0xF033, 0xF0FF)
  | .ldMemVx _ => (0xF055, 0xF0FF)
  | .ldVxMem _ => (0xF065, 0xF0FF)

/-! ### The assembler notation -/

/-- The register operand of the notation for a register. -/
def Operand.ofReg (x : Reg) : Operand := .v x.val

/-- An instruction as a line of the notation (R42). -/
def disassemble : Instr → AsmLine
  | .cls => ⟨.cls, []⟩
  | .ret => ⟨.ret, []⟩
  | .jp nnn => ⟨.jp, [.num nnn.toNat]⟩
  | .call nnn => ⟨.call, [.num nnn.toNat]⟩
  | .seImm x kk => ⟨.se, [.ofReg x, .num kk.toNat]⟩
  | .sneImm x kk => ⟨.sne, [.ofReg x, .num kk.toNat]⟩
  | .seReg x y => ⟨.se, [.ofReg x, .ofReg y]⟩
  | .sneReg x y => ⟨.sne, [.ofReg x, .ofReg y]⟩
  | .ldImm x kk => ⟨.ld, [.ofReg x, .num kk.toNat]⟩
  | .ldReg x y => ⟨.ld, [.ofReg x, .ofReg y]⟩
  | .addImm x kk => ⟨.add, [.ofReg x, .num kk.toNat]⟩
  | .orReg x y => ⟨.or, [.ofReg x, .ofReg y]⟩
  | .andReg x y => ⟨.and, [.ofReg x, .ofReg y]⟩
  | .xorReg x y => ⟨.xor, [.ofReg x, .ofReg y]⟩
  | .addReg x y => ⟨.add, [.ofReg x, .ofReg y]⟩
  | .sub x y => ⟨.sub, [.ofReg x, .ofReg y]⟩
  | .subn x y => ⟨.subn, [.ofReg x, .ofReg y]⟩
  | .shr x => ⟨.shr, [.ofReg x]⟩
  | .shl x => ⟨.shl, [.ofReg x]⟩
  | .ldI nnn => ⟨.ld, [.i, .num nnn.toNat]⟩
  | .jpV0 nnn => ⟨.jp, [.v 0, .num nnn.toNat]⟩
  | .rnd x kk => ⟨.rnd, [.ofReg x, .num kk.toNat]⟩
  | .drw x y n => ⟨.drw, [.ofReg x, .ofReg y, .num n.toNat]⟩
  | .skp x => ⟨.skp, [.ofReg x]⟩
  | .sknp x => ⟨.sknp, [.ofReg x]⟩
  | .ldVxDt x => ⟨.ld, [.ofReg x, .dt]⟩
  | .ldVxK x => ⟨.ld, [.ofReg x, .k]⟩
  | .ldDtVx x => ⟨.ld, [.dt, .ofReg x]⟩
  | .ldStVx x => ⟨.ld, [.st, .ofReg x]⟩
  | .addI x => ⟨.add, [.i, .ofReg x]⟩
  | .ldF x => ⟨.ld, [.f, .ofReg x]⟩
  | .ldB x => ⟨.ld, [.b, .ofReg x]⟩
  | .ldMemVx x => ⟨.ld, [.atI, .ofReg x]⟩
  | .ldVxMem x => ⟨.ld, [.ofReg x, .atI]⟩

/-- The row a mnemonic and its operand kinds select, with the operands taken as numbers (R42). -/
def assembleRow (l : AsmLine) : Option Instr :=
  let r (number : Nat) : Reg := Fin.ofNat 16 number
  match l.mnemonic, l.operands with
  | .cls, [] => some .cls
  | .ret, [] => some .ret
  | .jp, [.num a] => some (.jp (.ofNat 12 a))
  | .jp, [.v _, .num a] => some (.jpV0 (.ofNat 12 a))
  | .call, [.num a] => some (.call (.ofNat 12 a))
  | .se, [.v x, .num b] => some (.seImm (r x) (.ofNat 8 b))
  | .se, [.v x, .v y] => some (.seReg (r x) (r y))
  | .sne, [.v x, .num b] => some (.sneImm (r x) (.ofNat 8 b))
  | .sne, [.v x, .v y] => some (.sneReg (r x) (r y))
  | .ld, [.v x, .num b] => some (.ldImm (r x) (.ofNat 8 b))
  | .ld, [.v x, .v y] => some (.ldReg (r x) (r y))
  | .ld, [.i, .num a] => some (.ldI (.ofNat 12 a))
  | .ld, [.v x, .dt] => some (.ldVxDt (r x))
  | .ld, [.v x, .k] => some (.ldVxK (r x))
  | .ld, [.dt, .v x] => some (.ldDtVx (r x))
  | .ld, [.st, .v x] => some (.ldStVx (r x))
  | .ld, [.f, .v x] => some (.ldF (r x))
  | .ld, [.b, .v x] => some (.ldB (r x))
  | .ld, [.atI, .v x] => some (.ldMemVx (r x))
  | .ld, [.v x, .atI] => some (.ldVxMem (r x))
  | .add, [.v x, .num b] => some (.addImm (r x) (.ofNat 8 b))
  | .add, [.v x, .v y] => some (.addReg (r x) (r y))
  | .add, [.i, .v x] => some (.addI (r x))
  | .or, [.v x, .v y] => some (.orReg (r x) (r y))
  | .and, [.v x, .v y] => some (.andReg (r x) (r y))
  | .xor, [.v x, .v y] => some (.xorReg (r x) (r y))
  | .sub, [.v x, .v y] => some (.sub (r x) (r y))
  | .subn, [.v x, .v y] => some (.subn (r x) (r y))
  | .shr, [.v x] => some (.shr (r x))
  | .shl, [.v x] => some (.shl (r x))
  | .rnd, [.v x, .num b] => some (.rnd (r x) (.ofNat 8 b))
  | .drw, [.v x, .v y, .num n] => some (.drw (r x) (r y) (.ofNat 4 n))
  | .skp, [.v x] => some (.skp (r x))
  | .sknp, [.v x] => some (.sknp (r x))
  | _, _ => none

/-- The instruction a line of the notation stands for (R42); a line that is not well-formed stands for none. -/
def assemble (l : AsmLine) : Option Instr :=
  if l.wellFormed then assembleRow l else none

end Sys2Proof
end

