-- ==== Sys2Proof/Machine/State.lean ====
section
/-! DEFINITION. The state of the core (10_state.md R5: the list is exact) as plain data, its reset value (R16, R103), and the
reasons a step or a host operation can stop. -/

namespace Sys2Proof.Machine

/-- The framebuffer: cell `FB[i]` is bit `i`, and the cell of column `px` and row `py` is `FB[py * 64 + px]` (R13). -/
abbrev FrameBuffer := BitVec 2048

/-- `MEM` as the list of its cells that do not hold their reset contents (`Config.resetByte`), by rising address (log
entry 9). -/
abbrev Memory := List Host.Cell

/-- The fault latch `ERR` (R14, R88): the name of the first fault since Reset. -/
inductive FaultCode where
  | none
  | invalidOpcode
  | stackOverflow
  | stackUnderflow
  | programTooLarge
  deriving DecidableEq, Repr

/-- The number of a fault in `ERR` (R14, R88). -/
def FaultCode.code : FaultCode → BitVec 3
  | .none => 0
  | .invalidOpcode => 1
  | .stackOverflow => 2
  | .stackUnderflow => 3
  | .programTooLarge => 4

/-- Everything the core holds (R5), and three fields of the model's own at the end (R15: the inputs are no state of the
core; log entries 1 and 3). -/
structure State where
  /-- `V[0..15]` (R6); `V[15]` is VF (R7). -/
  v       : Vector Byte 16
  /-- The index register `I` (R8). -/
  i       : Word
  /-- `PC`: between steps, the address of the next instruction (R9). -/
  pc      : Word
  /-- `SP`: how many frames are in use, 0 to 16 (R10). -/
  sp      : Byte
  /-- `STACK[1..16]` (R10); slot `k` stands at index `k - 1`. -/
  stack   : Vector Word 16
  /-- `DT`, the delay timer (R11). -/
  dt      : Byte
  /-- `ST`, the sound timer (R11). -/
  st      : Byte
  /-- `MEM[0..4095]` (R12). -/
  mem     : Memory
  /-- `FB[0..2047]` (R13). -/
  fb      : FrameBuffer
  /-- `FB_DIRTY` (R13). -/
  fbDirty : Bool
  /-- `ERR` (R14). -/
  err     : FaultCode
  /-- The model's own: the `KEYS` argument of the coming Step (R15); bit `k` is key `k`. -/
  keys    : Word
  /-- The model's own: the `RAND` argument of the coming Step (R15). -/
  rand    : Byte
  /-- The model's own: how many Steps have been issued since Reset; it numbers the free values. -/
  steps   : Nat
  deriving DecidableEq, Repr

/-- The state right after Reset (R16, R103). `keys` and `rand` hold the first free inputs (log entry 1). -/
def State.reset : State :=
  { v       := Vector.replicate 16 0
    i       := 0
    pc      := 0x0200
    sp      := 0
    stack   := Vector.replicate 16 0
    dt      := 0
    st      := 0
    mem     := []
    fb      := 0
    fbDirty := false
    err     := .none
    keys    := Config.keysAt 0
    rand    := Config.randAt 0
    steps   := 0 }

/-- Why a step stops. The spec's own faults (R88) do not stop the model: their entry is a next state with `ERR` set
(R96, log entry 4). -/
inductive Fault where
  /-- A RET or a CALL would touch a slot of `STACK` that does not exist. Raised by `execRet` and `execCall` with `SP`
  above 16 only, which R10 says never happens (log entry 5). Safe: the model stops where the spec gives no effect. -/
  | noSuchStackSlot
  deriving DecidableEq, Repr

/-- Why an operation is refused. -/
inductive Refusal where
  /-- An instruction with no meaning yet, by the mnemonic of the opcode table. Raised by `exec` only; no arm raises it
  now. Safe: nothing is claimed of the instruction. -/
  | notModelled (mnemonic : String)
  /-- LoadProgram after the first Step, which the spec gives no meaning (R29, R107, D22, U22). Raised by the host
  operation `hostStep`, never by a step. Safe: the model stops where the spec gives no effect. -/
  | loadAfterFirstStep
  /-- A second LoadProgram since Reset, where one is legal (D22, N20). Raised by the host operation `hostStep`, never by a
  step. Safe: the model stops where the spec gives no effect. -/
  | secondLoad
  /-- An operation other than Reset on a core that has never been reset (R16, R103, R107, U21). Raised by the host
  operation `hostStep`, never by a step. Safe: the spec says to refuse. -/
  | beforeFirstReset
  deriving DecidableEq, Repr

/-- What an instruction answers. -/
abbrev Answer := Host.Outcome State Fault Refusal

end Sys2Proof.Machine
end

