-- ==== Sys2Proof/Machine/Ops.lean ====
section
/-! DEFINITION. The named operations over memory, registers, the stack and `PC`, and the entry of a fault. The hardware has
no return from a fault (60_exceptions.md R97), so no operation stands beside the entry. -/

namespace Sys2Proof.Machine

/-! ### Memory (20_memory.md R18 to R24) -/

/-- The byte at address `a`: the listed one, else the reset contents (R16, R24). -/
def Memory.read : Memory → Nat → Byte
  | [], a => Config.resetByte a
  | c :: m, a => if c.1 = a then c.2 else Memory.read m a

/-- Puts a cell before the first cell of a higher address. -/
def Memory.insertCell (a : Nat) (b : Byte) : Memory → Memory
  | [] => [(a, b)]
  | c :: m => if a < c.1 then (a, b) :: c :: m else c :: Memory.insertCell a b m

/-- Takes the cells of address `a` away. -/
def Memory.erase (m : Memory) (a : Nat) : Memory := m.filter fun c => c.1 != a

/-- Stores `b` at `a` and keeps the canonical form: a cell that would hold its reset contents is not listed. -/
def Memory.write (m : Memory) (a : Nat) (b : Byte) : Memory :=
  if b = Config.resetByte a then m.erase a else Memory.insertCell a b (m.erase a)

/-- Every address of the list is above `low`, and the addresses strictly rise. -/
def Memory.risingFrom : Nat → Memory → Bool
  | _, [] => true
  | low, c :: m => low ≤ c.1 && Memory.risingFrom (c.1 + 1) m

/-- The canonical form: addresses strictly rising, all below 4096, no cell at its reset contents. -/
def Memory.wf (m : Memory) : Bool :=
  Memory.risingFrom 0 m && m.all fun c => c.1 < Config.memSize && c.2 != Config.resetByte c.1

/-- The address the memory port makes of a 16-bit value: taken mod 4096 (R20, D11). -/
def port (a : Word) : Nat := a.toNat % Config.memSize

/-- `MemRead(a, 1)` (R4, R20). -/
def State.readByte (s : State) (a : Word) : Byte := s.mem.read (port a)

/-- `MemWrite(a, 1, b)` (R4, R20). -/
def State.writeByte (s : State) (a : Word) (b : Byte) : State := { s with mem := s.mem.write (port a) b }

/-- The `n` bytes from `a` on, in ascending order, each address taken mod 4096 on its own (R20, R23). -/
def State.readBytes (s : State) (a : Word) : Nat → List Byte
  | 0 => []
  | n + 1 => s.readByte a :: s.readBytes (a + 1) n

/-- Stores a list of bytes from `a` on, in ascending order (R20, R23). -/
def State.writeBytes (s : State) (a : Word) : List Byte → State
  | [] => s
  | b :: bs => (s.writeByte a b).writeBytes (a + 1) bs

/-! ### Registers (10_state.md R6) -/

/-- Reads a general register. -/
def State.reg (s : State) (x : Reg) : Byte := s.v[x]

/-- Writes a general register. -/
def State.setReg (s : State) (x : Reg) (b : Byte) : State := { s with v := s.v.set x b }

/-- Writes a result and a flag: both values are already computed, and the flag write comes last, so it wins when the
destination is VF (R48, D8, log entry 14). -/
def State.setRegFlag (s : State) (x : Reg) (b flag : Byte) : State := (s.setReg x b).setReg VF flag

/-- Writes `I`. -/
def State.setI (s : State) (a : Word) : State := { s with i := a }

/-- The bytes of `V[0]` to `V[x]`, lowest register first (R75). -/
def State.regsUpTo (s : State) (x : Reg) : List Byte := s.v.toList.take (x.val + 1)

/-- Writes `V[0]` to `V[x]`, each from the byte that `f` gives its number (R76). -/
def State.setRegsUpTo (s : State) (x : Reg) (f : Reg → Byte) : State :=
  { s with v := Vector.ofFn fun k => if k ≤ x then f k else s.v[k] }

/-! ### The stack (10_state.md R10) -/

/-- `STACK[k]`; there are slots 1 to 16 and no other. -/
def State.slot (s : State) (k : Nat) : Option Word := if k = 0 then none else s.stack[k - 1]?

/-- `STACK[k] <- a`, where slot `k` exists. -/
def State.setSlot (s : State) (k : Nat) (a : Word) : State := { s with stack := s.stack.setIfInBounds (k - 1) a }

/-! ### The program counter (40_fetch_execute.md R46, R47) -/

/-- `pc_next`: the address of the next instruction, mod 65536 (R46). -/
def State.pcNext (s : State) : Word := s.pc + 2

/-- `pc <- target`. -/
def State.jump (s : State) (target : Word) : State := { s with pc := target }

/-- `pc <- pc_next` (R46). -/
def State.advance (s : State) : State := s.jump s.pcNext

/-- The end of a conditional skip (R47): `pc_next + 2` where the condition holds, else `pc_next`. -/
def State.skipIf (s : State) (condition : Bool) : State := s.jump (if condition then s.pcNext + 2 else s.pcNext)

/-! ### Taking a fault (60_exceptions.md R96) -/

/-- Fault entry (R96): `ERR` takes the cause, and nothing else changes; `PC` keeps the faulting address. -/
def State.takeFault (s : State) (cause : FaultCode) : State := { s with err := cause }

/-! ### Fetch (40_fetch_execute.md R44) -/

/-- The word a Step fetches: the bytes at `PC` and `PC + 1`, each address reduced on its own, big-endian (R44, R20,
R21). -/
def State.fetchWord (s : State) : Word := s.readByte s.pc ++ s.readByte (s.pc + 1)

/-! ### Operations of the host (70_reset_and_hazards.md R107) -/

/-- One count of a timer towards 0, which is the floor (R87). -/
def countDown (t : Byte) : Byte := if t = 0 then 0 else t - 1

/-- Tick (R87): each timer counts down on its own; nothing else is touched. -/
def State.tick (s : State) : State := { s with dt := countDown s.dt, st := countDown s.st }

/-- A timer after `n` Ticks (R87). It is 0 for a timer at 0, whatever `n` is. -/
def countDownBy (n : Nat) (t : Byte) : Byte := if t = 0 then 0 else BitVec.ofNat 8 (t.toNat - n)

/-- `n` Ticks (R87); `Laws/Ops.lean` proves that it is `n` times `State.tick`. -/
def State.ticks (s : State) (n : Nat) : State := { s with dt := countDownBy n s.dt, st := countDownBy n s.st }

/-- ClearDirty (R107). -/
def State.clearDirty (s : State) : State := { s with fbDirty := false }

/-- A ClearDirty if the host issues one. -/
def State.clearDirtyIf (s : State) (issued : Bool) : State := { s with fbDirty := s.fbDirty && !issued }

/-- Stores a program image from the load address on (R29); an image of `LoadProgram` ends within `MEM`. -/
def Memory.load (m : Memory) (a : Nat) : List Byte → Memory
  | [] => m
  | b :: bs => (m.write a b).load (a + 1) bs

/-- LoadProgram (R29): nothing while `ERR` is set; `ProgramTooLarge` for more than 3584 bytes, with no byte written;
else the image from 0x200 on. -/
def State.loadProgram (s : State) (bytes : List Byte) : State :=
  if s.err ≠ .none then s
  else if bytes.length > Config.memSize - Config.pcStart then s.takeFault .programTooLarge
  else { s with mem := s.mem.load Config.pcStart bytes }

/-- What lies between two Steps of a run: the Ticks and the ClearDirty the host issues there, and the inputs of the
next Step, all free values (R106, R107, R15, log entries 1 and 2). -/
def State.betweenSteps (s : State) : State :=
  let t := (s.ticks (Config.ticksAfter s.steps)).clearDirtyIf (Config.clearsAfter s.steps)
  { t with keys := Config.keysAt (s.steps + 1), rand := Config.randAt (s.steps + 1), steps := s.steps + 1 }

end Sys2Proof.Machine
end

