-- ==== Sys2Proof/Machine/Operands.lean ====
section
/-! DEFINITION. The operand forms (30_encoding.md R37; 43_index_memory.md; 45_timer_key_random.md). -/

namespace Sys2Proof.Machine

/-- A 12-bit address widened to 16 bits with zeros (R37, R4). -/
def zextAddr (nnn : Addr) : Word := nnn.zeroExtend 16

/-- A byte widened to 16 bits with zeros (R4). -/
def zextByte (b : Byte) : Word := b.zeroExtend 16

/-- The target of `JP V0,nnn`: the 16-bit sum, not reduced to 12 bits (R58). -/
def State.indexedTarget (s : State) (nnn : Addr) : Word := zextAddr nnn + zextByte (s.reg 0)

/-- The address of the `k`-th byte of an access through `I` (43_index_memory.md section head). The port reduces it
mod 4096. -/
def State.indexed (s : State) (k : Nat) : Word := s.i + BitVec.ofNat 16 k

/-- The sum of `ADD I,Vx`, reduced to 12 bits (R72, D10, log entry 16). -/
def State.indexSum (s : State) (x : Reg) : Word := (s.i + zextByte (s.reg x)) &&& 0x0FFF

/-- The address of the font glyph of a digit, `V[x] * 5` with no mask on `V[x]` (R73). -/
def State.glyphAddress (s : State) (x : Reg) : Word := zextByte (s.reg x) * BitVec.ofNat 16 Config.glyphBytes

/-- The decimal digits of a byte: hundreds, tens, ones, each a whole byte (R74). -/
def bcdDigits (a : Byte) : List Byte := [a / 100, a / 10 % 10, a % 10]

/-- Key number `k` is held: there are keys 0 to 15 only, and a larger number is of no key (R81, D16, log entry 17). -/
def State.keyHeld (s : State) (k : Byte) : Bool := decide (k ≤ 15) && s.keys.getLsbD k.toNat

/-- The least `k` from `low` on, of the next `n`, whose bit of the mask is set; `low + n` if there is none. -/
def leastKeyFrom (keys : Word) : Nat → Nat → Nat
  | low, 0 => low
  | low, n + 1 => if keys.getLsbD low then low else leastKeyFrom keys (low + 1) n

/-- The number of the lowest-numbered held key (R84, D15, log entry 17); read only where some key is held. -/
def State.leastKey (s : State) : Byte := BitVec.ofNat 8 (leastKeyFrom s.keys 0 Config.keyCount)

end Sys2Proof.Machine
end

