-- ==== Sys2Proof/Machine/Flags.lean ====
section
/-! DEFINITION. The flag computations (10_state.md R7; 42_alu.md R65 to R70). A flag is the byte 0 or 1; each is a function
of the sampled operands. -/

namespace Sys2Proof.Machine

/-- A condition as the value of a flag: 1 if it holds, else 0 (R7). -/
def flag (condition : Bool) : Byte := if condition then 1 else 0

/-- The carry out of `a + b`: the 9-bit sum exceeds 255 (R65). -/
def carryOut (a b : Byte) : Byte := flag (decide (a.toNat + b.toNat > 255))

/-- The not-borrow of `a - b`: minuend at least subtrahend, equality included (R66, R68, C1). -/
def notBorrow (a b : Byte) : Byte := flag (decide (a.toNat ≥ b.toNat))

/-- The bit a shift right by one moves out at the bottom (R67). -/
def lowBitOut (a : Byte) : Byte := flag (a.getLsbD 0)

/-- The bit a shift left by one moves out at the top, as 0 or 1 (R69). -/
def topBitOut (a : Byte) : Byte := flag (a.getLsbD 7)

end Sys2Proof.Machine
end

