-- ==== Sys2Proof/Machine/Alu.lean ====
section
/-! DEFINITION. The register and ALU instructions of 42_alu.md (R59 to R69). Operands are sampled before any write (R48);
arithmetic wraps mod 256 (R70); each ends with `pc <- pc_next`. -/

namespace Sys2Proof.Machine

/-- The shape of an instruction that writes one register and no flag. -/
def writeResult (x : Reg) (result : Byte) (s : State) : Answer := .next (s.setReg x result).advance

/-- The shape of an instruction that writes a result and a flag, the flag last (R48). -/
def writeResultFlag (x : Reg) (result flagValue : Byte) (s : State) : Answer :=
  .next (s.setRegFlag x result flagValue).advance

/-- `LD Vx,kk` (R59). -/
def execLdImm (x : Reg) (kk : Byte) (s : State) : Answer := writeResult x kk s

/-- `ADD Vx,kk` (R60): no flag. -/
def execAddImm (x : Reg) (kk : Byte) (s : State) : Answer := writeResult x (s.reg x + kk) s

/-- `LD Vx,Vy` (R61). -/
def execLdReg (x y : Reg) (s : State) : Answer := writeResult x (s.reg y) s

/-- `OR Vx,Vy` (R62): VF untouched. -/
def execOrReg (x y : Reg) (s : State) : Answer := writeResult x (s.reg x ||| s.reg y) s

/-- `AND Vx,Vy` (R63): VF untouched. -/
def execAndReg (x y : Reg) (s : State) : Answer := writeResult x (s.reg x &&& s.reg y) s

/-- `XOR Vx,Vy` (R64): VF untouched. -/
def execXorReg (x y : Reg) (s : State) : Answer := writeResult x (s.reg x ^^^ s.reg y) s

/-- `ADD Vx,Vy` (R65): VF is the carry out. -/
def execAddReg (x y : Reg) (s : State) : Answer :=
  writeResultFlag x (s.reg x + s.reg y) (carryOut (s.reg x) (s.reg y)) s

/-- `SUB Vx,Vy` (R66): VF is the not-borrow. -/
def execSub (x y : Reg) (s : State) : Answer :=
  writeResultFlag x (s.reg x - s.reg y) (notBorrow (s.reg x) (s.reg y)) s

/-- `SUBN Vx,Vy` (R68): SUB with the operands of the subtraction and of the comparison swapped. -/
def execSubn (x y : Reg) (s : State) : Answer :=
  writeResultFlag x (s.reg y - s.reg x) (notBorrow (s.reg y) (s.reg x)) s

/-- `SHR Vx` (R67): in place, by one; VF is the bit moved out. -/
def execShr (x : Reg) (s : State) : Answer := writeResultFlag x (s.reg x >>> 1) (lowBitOut (s.reg x)) s

/-- `SHL Vx` (R69): in place, by one; VF is the bit moved out, 0 or 1. -/
def execShl (x : Reg) (s : State) : Answer := writeResultFlag x (s.reg x <<< 1) (topBitOut (s.reg x)) s

end Sys2Proof.Machine
end

