-- ==== Sys2Proof/Machine/Control.lean ====
section
/-! DEFINITION. The control-transfer instructions of 41_control_flow.md (R51 to R58). None of them touches VF. -/

namespace Sys2Proof.Machine

/-- `RET` (R51): the fault comes before any write; the returned-to address is the stacked value as it stands, and the
slot keeps its value. -/
def execRet (s : State) : Answer :=
  if s.sp = 0 then .next (s.takeFault .stackUnderflow)
  else match s.slot s.sp.toNat with
    | some a => .next { s.jump a with sp := s.sp - 1 }
    | none => .fault .noSuchStackSlot

/-- `JP nnn` (R52): any target, odd or even. -/
def execJp (nnn : Addr) (s : State) : Answer := .next (s.jump (zextAddr nnn))

/-- `CALL nnn` (R53): the fault comes before any write; it stacks `pc_next` at `SP + 1`. -/
def execCall (nnn : Addr) (s : State) : Answer :=
  if s.sp = BitVec.ofNat 8 Config.stackDepth then .next (s.takeFault .stackOverflow)
  else match s.slot (s.sp.toNat + 1) with
    | some _ => .next { (s.setSlot (s.sp.toNat + 1) s.pcNext).jump (zextAddr nnn) with sp := s.sp + 1 }
    | none => .fault .noSuchStackSlot

/-- `SE Vx,kk` (R54). -/
def execSeImm (x : Reg) (kk : Byte) (s : State) : Answer := .next (s.skipIf (s.reg x == kk))

/-- `SNE Vx,kk` (R55). -/
def execSneImm (x : Reg) (kk : Byte) (s : State) : Answer := .next (s.skipIf (s.reg x != kk))

/-- `SE Vx,Vy` (R56). -/
def execSeReg (x y : Reg) (s : State) : Answer := .next (s.skipIf (s.reg x == s.reg y))

/-- `SNE Vx,Vy` (R57). -/
def execSneReg (x y : Reg) (s : State) : Answer := .next (s.skipIf (s.reg x != s.reg y))

/-- `JP V0,nnn` (R58): the register is always `V[0]`, and the sum keeps its 16 bits. -/
def execJpV0 (nnn : Addr) (s : State) : Answer := .next (s.jump (s.indexedTarget nnn))

end Sys2Proof.Machine
end

