-- ==== Sys2Proof/Machine/Display.lean ====
section
/-! DEFINITION. The display instructions of 44_display.md (R77, R78) and the sprite operation Blit (R79). -/

namespace Sys2Proof.Machine

/-- The number of the cell that a pixel at column `cx` and row `cy` falls on: both coordinates wrap (R13, R79, D7). -/
def cellIndex (cx cy : Nat) : Nat := cy % Config.fbH * Config.fbW + cx % Config.fbW

/-- Puts one set sprite pixel on a cell: the cell flips, and a cell that was 1 is a collision (R79). -/
def flipCell (acc : FrameBuffer × Bool) (index : Nat) : FrameBuffer × Bool :=
  (acc.1 ^^^ BitVec.twoPow 2048 index, acc.2 || acc.1.getLsbD index)

/-- One pixel of a sprite row, at column offset `c`, which is bit `7 - c` of the row byte (R79, D6, log entry 13); a
pixel that is 0 leaves its cell alone. -/
def blitPixel (row : Byte) (cx cy : Nat) (acc : FrameBuffer × Bool) (c : Nat) : FrameBuffer × Bool :=
  if row.getLsbD (7 - c) then flipCell acc (cellIndex (cx + c) cy) else acc

/-- One sprite row, eight pixels from column `cx` on (R79). -/
def blitRow (row : Byte) (cx cy : Nat) (acc : FrameBuffer × Bool) : FrameBuffer × Bool :=
  [0, 1, 2, 3, 4, 5, 6, 7].foldl (blitPixel row cx cy) acc

/-- The rows of a sprite, each one row below the one before (R79). -/
def blitRows (cx : Nat) : Nat → List Byte → FrameBuffer × Bool → FrameBuffer × Bool
  | _, [], acc => acc
  | cy, row :: rows, acc => blitRows cx (cy + 1) rows (blitRow row cx cy acc)

/-- `Blit(FB, rows, cx, cy)` (R79): the new framebuffer, and whether some cell went from 1 to 0. -/
def blit (fb : FrameBuffer) (rows : List Byte) (cx cy : Byte) : FrameBuffer × Bool :=
  blitRows cx.toNat cy.toNat rows (fb, false)

/-- The end of both display instructions: the framebuffer is written and marked dirty (R13, R77, R78). -/
def State.setFb (s : State) (fb : FrameBuffer) : State := { s with fb := fb, fbDirty := true }

/-- `CLS` (R77): VF untouched. -/
def execCls (s : State) : Answer := .next (s.setFb 0).advance

/-- `DRW Vx,Vy,n` (R78): the coordinates are sampled before VF is written; VF is the collision. -/
def execDrw (x y : Reg) (n : Nibble) (s : State) : Answer :=
  let drawn := blit s.fb (s.readBytes s.i n.toNat) (s.reg x) (s.reg y)
  .next ((s.setFb drawn.1).setReg VF (flag drawn.2)).advance

end Sys2Proof.Machine
end

