-- ==== Sys2Proof/Machine/Index.lean ====
section
/-! DEFINITION. The index register and memory instructions of 43_index_memory.md (R71 to R76). No load or store changes `I`
(R75, D9, log entry 15), and no access faults (R20). -/

namespace Sys2Proof.Machine

/-- `LD I,nnn` (R71). -/
def execLdI (nnn : Addr) (s : State) : Answer := .next (s.setI (zextAddr nnn)).advance

/-- `ADD I,Vx` (R72): the sum wraps in 12 bits; VF untouched. -/
def execAddI (x : Reg) (s : State) : Answer := .next (s.setI (s.indexSum x)).advance

/-- `LD F,Vx` (R73). -/
def execLdF (x : Reg) (s : State) : Answer := .next (s.setI (s.glyphAddress x)).advance

/-- `LD B,Vx` (R74): hundreds, tens and ones at `I`, `I + 1`, `I + 2`. -/
def execLdB (x : Reg) (s : State) : Answer := .next (s.writeBytes s.i (bcdDigits (s.reg x))).advance

/-- `LD [I],Vx` (R75): `V[0]` to `V[x]`, both included, from `I` on. -/
def execLdMemVx (x : Reg) (s : State) : Answer := .next (s.writeBytes s.i (s.regsUpTo x)).advance

/-- `LD Vx,[I]` (R76): `V[0]` to `V[x]`, both included, from `I` on. -/
def execLdVxMem (x : Reg) (s : State) : Answer :=
  .next (s.setRegsUpTo x fun k => s.readByte (s.indexed k.val)).advance

end Sys2Proof.Machine
end

