-- ==== Sys2Proof/Machine/TimerKey.lean ====
section
/-! DEFINITION. The random, keypad and timer instructions of 45_timer_key_random.md (R80 to R86). The inputs KEYS and RAND
of the Step are the fields `keys` and `rand` (log entry 1). Tick (R87) is `State.tick`. -/

namespace Sys2Proof.Machine

/-- `RND Vx,kk` (R80). -/
def execRnd (x : Reg) (kk : Byte) (s : State) : Answer := .next (s.setReg x (s.rand &&& kk)).advance

/-- `SKP Vx` (R81): the key is the content of `V[x]`. -/
def execSkp (x : Reg) (s : State) : Answer := .next (s.skipIf (s.keyHeld (s.reg x)))

/-- `SKNP Vx` (R82). -/
def execSknp (x : Reg) (s : State) : Answer := .next (s.skipIf (!s.keyHeld (s.reg x)))

/-- `LD Vx,DT` (R83). -/
def execLdVxDt (x : Reg) (s : State) : Answer := .next (s.setReg x s.dt).advance

/-- `LD Vx,K` (R84): with no key held nothing changes, so the next Step runs the instruction again. -/
def execLdVxK (x : Reg) (s : State) : Answer :=
  .next (if s.keys = 0 then s else (s.setReg x s.leastKey).advance)

/-- `LD DT,Vx` (R85). -/
def execLdDtVx (x : Reg) (s : State) : Answer := .next { s.advance with dt := s.reg x }

/-- `LD ST,Vx` (R86). -/
def execLdStVx (x : Reg) (s : State) : Answer := .next { s.advance with st := s.reg x }

end Sys2Proof.Machine
end

