-- ==== Sys2Proof/Machine/Engine.lean ====
section
/-! DEFINITION. The execution engine's Step (40_fetch_execute.md R43) and what it returns, and the host's operations
(70_reset_and_hazards.md R107). -/

namespace Sys2Proof.Machine

/-- `Step(KEYS, RAND)` with the inputs in `keys` and `rand` (R43): nothing while `ERR` is set (R50); else fetch, decode,
dispatch, and the fault `InvalidOpcode` (R89) or the instruction. It never ticks the timers (R87). -/
def instrStep (s : State) : Answer :=
  if s.err ≠ .none then .next s
  else match decodeWord s.fetchWord with
    | none => .next (s.takeFault .invalidOpcode)
    | some i => exec i s

/-- What a Step followed by an operation of the model's own on the state it leaves answers. -/
def andThen (a : Answer) (f : State → State) : Answer :=
  match a with
  | .next t => .next (f t)
  | .fault r => .fault r
  | .refused r => .refused r

/-- What an operation returns to the host (R107). -/
inductive Reply where
  /-- Reset, Tick and ClearDirty return nothing. -/
  | nothing
  /-- LoadProgram succeeded. -/
  | loaded
  /-- LoadProgram raised `ProgramTooLarge` on an image of so many bytes (R88, R92). -/
  | tooLarge (len : Nat)
  /-- The Step completed its instruction. -/
  | completed
  /-- The Step ran `LD Vx,K` with no key held (R84). -/
  | waiting
  /-- The Step raised a fault: cause, `pc0`, `op` (R96). -/
  | faulted (cause : FaultCode) (pc0 op : Word)
  /-- `ERR` was set already: the latched cause (R50, R29). -/
  | halted (cause : FaultCode)
  deriving DecidableEq, Repr

/-- The Step waits: it runs `LD Vx,K` and no key is held (R43, R84). -/
def State.waits (s : State) : Bool :=
  match decodeWord s.fetchWord with
  | some (.ldVxK _) => s.keys == 0
  | _ => false

/-- What the Step that leads from `s` to `t` returns (R43, R50, R96). -/
def stepReply (s t : State) : Reply :=
  if s.err ≠ .none then .halted s.err
  else if t.err ≠ .none then .faulted t.err s.pc s.fetchWord
  else if s.waits then .waiting
  else .completed

/-- What LoadProgram returns (R29, R107). -/
def loadReply (s : State) (bytes : List Byte) : Reply :=
  if s.err ≠ .none then .halted s.err
  else if (s.loadProgram bytes).err ≠ .none then .tooLarge bytes.length
  else .loaded

/-- The operations of the host (R107). -/
inductive HostOp where
  | reset
  | loadProgram (bytes : List Byte)
  | step (keys : Word) (rand : Byte)
  | tick
  | clearDirty
  deriving DecidableEq, Repr

/-- The core as its host finds it. Before the first Reset no state is specified and nothing of it can be seen (R16, R103,
U21); after it the core has its state, and the host has or has not loaded a program since the last Reset (D22). -/
inductive HostedCore where
  | neverReset
  | live (s : State) (loaded : Bool)
  deriving DecidableEq, Repr

/-- What an operation of the host answers: the core it leaves and what it returns. -/
abbrev HostAnswer := Host.Outcome (HostedCore × Reply) Fault Refusal

/-- LoadProgram on a core that has been reset (R29): no effect while `ERR` is set (D14); else legal before the first Step
only (R29, R107), and once since Reset (D22, log entry 22). -/
def hostLoad (bytes : List Byte) (s : State) (loaded : Bool) : HostAnswer :=
  if s.err ≠ .none then .next (.live s loaded, .halted s.err)
  else if s.steps ≠ 0 then .refused .loadAfterFirstStep
  else if loaded then .refused .secondLoad
  else .next (.live (s.loadProgram bytes) true, loadReply s bytes)

/-- Step with the host's inputs (R43), counted. -/
def hostInstr (keys : Word) (rand : Byte) (s : State) (loaded : Bool) : HostAnswer :=
  match instrStep { s with keys := keys, rand := rand } with
  | .next t => .next (.live { t with steps := s.steps + 1 } loaded, stepReply { s with keys := keys, rand := rand } t)
  | .fault r => .fault r
  | .refused r => .refused r

/-- One operation of the host (R107), with what it returns. Reset is legal always, and nothing else is before the first
Reset (R103). -/
def hostStep (op : HostOp) (c : HostedCore) : HostAnswer :=
  match op, c with
  | .reset, _ => .next (.live State.reset false, .nothing)
  | _, .neverReset => .refused .beforeFirstReset
  | .loadProgram bytes, .live s loaded => hostLoad bytes s loaded
  | .step keys rand, .live s loaded => hostInstr keys rand s loaded
  | .tick, .live s loaded => .next (.live s.tick loaded, .nothing)
  | .clearDirty, .live s loaded => .next (.live s.clearDirty loaded, .nothing)

/-- A sequence of operations of the host (R104, R108), with the reply of the last; it ends early where one stops. -/
def hostRun : List HostOp → HostedCore × Reply → HostAnswer
  | [], cr => .next cr
  | op :: ops, cr =>
    match hostStep op cr.1 with
    | .next cr' => hostRun ops cr'
    | .fault r => .fault r
    | .refused r => .refused r

/-- The two bytes of an instruction at `PC` and `PC + 1`, and no fault latched, so that a Step runs it (R43, R44). -/
def State.placeInstruction (s : State) (bytes : Byte × Byte) : State :=
  { (s.writeByte s.pc bytes.1).writeByte (s.pc + 1) bytes.2 with err := .none }

end Sys2Proof.Machine
end

