-- ==== Sys2Proof/Machine/Step.lean ====
section
/-! DEFINITION. The step of the host's machine: one Step (R43), then what lies between it and the next (R106). -/

namespace Sys2Proof.Machine

/-- One Step with the inputs in `keys` and `rand`, then the free Ticks, ClearDirty and inputs up to the next Step (log
entries 1 and 2). -/
def step (s : State) : Host.Outcome State Fault Refusal := andThen (instrStep s) State.betweenSteps

/-- `s` with the instruction of an opcode-table row placed where the next Step fetches (log entry 7). -/
def State.withFetchWord (s : State) (nbits w : Nat) : State := s.placeInstruction (tableWordBytes nbits w)

end Sys2Proof.Machine
end

