-- ==== Sys2Proof/Safety.lean ====
section
/-! DEFINITION. What counts as a safe run, and the terms the statements use: the legal values of the state, the frame of an
instruction, the skip rule, the pixels a sprite covers. These are written from the spec's own formulas and call no meaning. -/

namespace Sys2Proof.Machine

/-! ### States -/

/-- The legal values of the state (R5): `I` is a 12-bit value (R8), `SP` counts 0 to 16 frames (R10), and the memory list
is canonical, with no address above 0xFFF (R12, log entry 9). Every other field holds legal values only, by its type. -/
abbrev State.Inv (s : State) : Prop := s.i ≤ 0x0FFF ∧ s.sp ≤ 16 ∧ s.mem.wf = true

/-- The legal values of the core as its host finds it: before the first Reset nothing is specified (R16, R103). -/
def HostedCore.Inv : HostedCore → Prop
  | .neverReset => True
  | .live s _ => s.Inv

/-- No fault is latched: the premise a claim about a program takes (R96). -/
abbrev State.Running (s : State) : Prop := s.err = .none

/-- The program has finished at address `a` (R108, D28, log entry 23): `PC = a`, `ERR = 0`, and the word at `a` is the
self-jump `JP a`. -/
abbrev State.FinishedAt (s : State) (a : Addr) : Prop :=
  s.pc = zextAddr a ∧ s.Running ∧ s.fetchWord = encode (.jp a)

/-! ### Frames -/

/-- The pieces of the state beside the general registers and `PC`. -/
inductive Part where
  | index | stackPointer | stackSlots | delayTimer | soundTimer | memory | screen | latch | inputs
  deriving DecidableEq, Repr

/-- A piece of the state is the same in `t` as in `s`. Memory is compared byte by byte, at every address, and the stack
slot by slot. `screen` is the framebuffer with its dirty mark, `inputs` the model's own three fields. -/
def Part.Kept (s t : State) : Part → Prop
  | .index => t.i = s.i
  | .stackPointer => t.sp = s.sp
  | .stackSlots => ∀ k, t.slot k = s.slot k
  | .delayTimer => t.dt = s.dt
  | .soundTimer => t.st = s.st
  | .memory => ∀ a, t.mem.read a = s.mem.read a
  | .screen => t.fb = s.fb ∧ t.fbDirty = s.fbDirty
  | .latch => t.err = s.err
  | .inputs => t.keys = s.keys ∧ t.rand = s.rand ∧ t.steps = s.steps

/-- From `s` to `t` nothing changes but the registers of `regs`, the parts of `written`, and `PC`. -/
def Frame (s t : State) (regs : List Reg) (written : List Part) : Prop :=
  (∀ r, r ∉ regs → t.reg r = s.reg r) ∧ ∀ p, p ∉ written → p.Kept s t

/-- `PC` holds `pc_next` (R46). -/
def AtNext (s t : State) : Prop := t.pc.toNat = (s.pc.toNat + 2) % 65536

/-- The skip rule (R47): `PC` is `pc0 + 4` where the condition holds, else `pc_next`. -/
def SkipsIf (condition : Prop) (s t : State) : Prop :=
  (condition → t.pc.toNat = (s.pc.toNat + 4) % 65536) ∧ (¬ condition → AtNext s t)

/-! ### The framebuffer -/

/-- The cell of column `px` and row `py` (R13). -/
def State.cell (s : State) (px py : Nat) : Bool := s.fb.getLsbD (py * 64 + px)

/-- A set pixel of the sprite of `n` rows at `I`, drawn at `(V[x], V[y])`, falls on the cell of column `px` and row `py`
(R78, R79): row `r` is the byte at `(I + r) mod 4096`, and its column `c` is bit `7 - c`. -/
def State.SpriteCovers (s : State) (x y : Reg) (n : Nibble) (px py : Nat) : Prop :=
  ∃ r < n.toNat, ∃ c < 8, (s.mem.read ((s.i.toNat + r) % 4096)).getLsbD (7 - c) = true ∧
    px = ((s.reg x).toNat + c) % 64 ∧ py = ((s.reg y).toNat + r) % 32

end Sys2Proof.Machine

namespace Sys2Proof

/-! ### Instructions -/

/-- The instructions that write VF as a flag (R7; the rule says seven and lists these six, log entry 19). -/
def Instr.writesFlag : Instr → Bool
  | .addReg _ _ | .sub _ _ | .subn _ _ | .shr _ | .shl _ | .drw _ _ _ => true
  | _ => false

/-- The instruction names `r` as an ordinary destination (R6, R7): its `x` field, or for `LD Vx,[I]` a register up to
its `x` field. -/
def Instr.hasDestination (i : Instr) (r : Reg) : Bool :=
  match i with
  | .ldImm x _ | .addImm x _ | .ldReg x _ | .orReg x _ | .andReg x _ | .xorReg x _ => r == x
  | .addReg x _ | .sub x _ | .subn x _ | .shr x | .shl x => r == x
  | .rnd x _ | .ldVxDt x | .ldVxK x => r == x
  | .ldVxMem x => decide (r ≤ x)
  | _ => false

/-- What the operand fields add to the `match` value of an instruction's row in its canonical word (R36). -/
def Instr.operandSum : Instr → Nat
  | .cls | .ret => 0
  | .jp nnn | .call nnn | .ldI nnn | .jpV0 nnn => nnn.toNat
  | .seImm x kk | .sneImm x kk | .ldImm x kk | .addImm x kk | .rnd x kk => x.val * 256 + kk.toNat
  | .seReg x y | .sneReg x y | .ldReg x y | .orReg x y | .andReg x y | .xorReg x y => x.val * 256 + y.val * 16
  | .addReg x y | .sub x y | .subn x y => x.val * 256 + y.val * 16
  | .drw x y n => x.val * 256 + y.val * 16 + n.toNat
  | .shr x | .shl x | .skp x | .sknp x | .ldVxDt x | .ldVxK x => x.val * 256
  | .ldDtVx x | .ldStVx x | .addI x | .ldF x | .ldB x | .ldMemVx x | .ldVxMem x => x.val * 256

/-- The bits of a word that its instruction examines or uses (R35, R40); the others are zero in the canonical word. -/
def Instr.usedBits : Instr → Word
  | .cls | .ret => 0xF0FF
  | .seReg _ _ | .sneReg _ _ => 0xFFF0
  | .shr _ | .shl _ => 0xFF0F
  | _ => 0xFFFF

end Sys2Proof
end

