-- ==== Sys2Proof/Certificates/Slice0/Obligations.lean ====
section
/-! DEFINITION. The statements for the provers. Each is named by what it states; its docstring gives the rules of spec/ it
formalises, and says so where a clause rests on a choice of the model or on a decision the spec marks as its own. -/

section

open Sys2Proof Sys2Proof.Machine

/-! ### Decoder, dispatch, encoder -/

/-- R32: the five fields and the top nibble as arithmetic on the word, how they overlap, and the worked example. -/
def Obligations.DecoderExtractsTheFields : Prop :=
  (∀ op : Word,
    let f := decodeFields op
    f.nnn.toNat = op.toNat % 4096 ∧ f.n.toNat = op.toNat % 16 ∧ f.x.toNat = op.toNat / 256 % 16 ∧
    f.y.toNat = op.toNat / 16 % 16 ∧ f.kk.toNat = op.toNat % 256 ∧ f.top.toNat = op.toNat / 4096 ∧
    f.nnn.toNat = f.x.toNat * 256 + f.kk.toNat ∧ f.kk.toNat = f.y.toNat * 16 + f.n.toNat ∧
    op.toNat = f.top.toNat * 4096 + f.x.toNat * 256 + f.y.toNat * 16 + f.n.toNat ∧ f.wellFormed = true) ∧
  decodeFields 0xD12A = { top := 0xD, nnn := 0x12A, x := 1, y := 2, n := 0xA, kk := 0x2A }

/-- R35 against R38: the two-level dispatch and the table of masks and patterns select the same instruction for every
word, and no two rows of the table overlap, so the order of testing does not matter. The numbers of the table are the
spec's decision D1, the dispatch keys D2 (log entry 10). -/
def Obligations.DispatchIsTheOpcodeMap : Prop :=
  (∀ op : Word, decodeWord op = tableSelect op) ∧
  opcodeMap.Pairwise fun r r' => ∀ op : Word, ¬ (r.selects op = true ∧ r'.selects op = true)

/-- R39: the invalid words are exactly those of the four families with a secondary key that are in none of its cases
(numbers: D1; no `0nnn`: D3; log entry 10). -/
def Obligations.InvalidWordsAreExactlyTheListedOnes : Prop :=
  ∀ op : Word, decodeWord op = none ↔
    (op.toNat / 4096 = 0x0 ∧ op.toNat % 256 ∉ [0xE0, 0xEE]) ∨
    (op.toNat / 4096 = 0x8 ∧ op.toNat % 16 ∈ [0x8, 0x9, 0xA, 0xB, 0xC, 0xD, 0xF]) ∨
    (op.toNat / 4096 = 0xE ∧ op.toNat % 256 ∉ [0x9E, 0xA1]) ∨
    (op.toNat / 4096 = 0xF ∧ op.toNat % 256 ∉ [0x07, 0x0A, 0x15, 0x18, 0x1E, 0x29, 0x33, 0x55, 0x65])

/-- R36: the canonical word of an instruction is the `match` value of its row with the operand fields added in; the
rule's worked examples, with the bytes in memory order (R21). Numbers: D1 (log entry 10). -/
def Obligations.EncodeIsMatchPlusOperands : Prop :=
  (∀ i : Instr, (encode i).toNat = (rowOf i).1.toNat + i.operandSum) ∧
  encode (.addReg 3 4) = 0x8344 ∧ encode (.drw 0 1 5) = 0xD015 ∧ encode (.ldMemVx 0xA) = 0xFA55 ∧
  encode (.jp 0x20A) = 0x120A ∧ encodeBytes (.addReg 3 4) = [0x83, 0x44]

/-- R36: decoding the canonical word of any instruction gives back the instruction with its operands; so does reading
its two bytes from the front of any string of bytes, which leaves the rest. -/
def Obligations.DecodeInvertsEncode : Prop :=
  ∀ (i : Instr) (rest : List Byte), decodeWord (encode i) = some i ∧ decode (encodeBytes i ++ rest) = .ok (i, rest)

/-- R36, R40: encoding what a valid word decodes to gives the word with the bits its instruction ignores set to zero; so
a canonical word comes back, and an alias gives its canonical word. Ignored bits: D2, D26 (log entries 10, 20). -/
def Obligations.EncodeInvertsDecode : Prop :=
  ∀ (op : Word) (i : Instr), decodeWord op = some i → encode i = op &&& i.usedBits

/-- 95_test_vectors.md section 2.1: words written out bit by bit decode to the instructions they stand for (R38, R40:
numbers D1, log entry 10). -/
def Obligations.WrittenOutWordsDecode : Prop :=
  decodeWord 0b0000000011100000 = some .cls ∧ decodeWord 0b0000001111100000 = some .cls ∧
  decodeWord 0b0001001010101011 = some (.jp 0x2AB) ∧ decodeWord 0b0101000100100001 = some (.seReg 1 2) ∧
  decodeWord 0b1000101010110100 = some (.addReg 0xA 0xB) ∧ decodeWord 0b1000101011110110 = some (.shr 0xA) ∧
  decodeWord 0b1101000100101010 = some (.drw 1 2 10) ∧ decodeWord 0b1110000110011110 = some (.skp 1) ∧
  decodeWord 0b1111000101100101 = some (.ldVxMem 1) ∧ decodeWord 0b0000000000000000 = none

/-- R42: the line of assembler notation of an instruction is well-formed and stands for that instruction (the notation
is the spec's decision D27, log entry 24). -/
def Obligations.AssembleInvertsDisassemble : Prop :=
  ∀ i : Instr, (disassemble i).wellFormed = true ∧ assemble (disassemble i) = some i

/-! ### The engine -/

/-- R44, R20, R21: the fetched word is made of the bytes at `PC` and `PC + 1`, each address mod 4096 (D11, log entry
16), the first the high byte. -/
def Obligations.FetchReadsTwoBytesBigEndian : Prop :=
  ∀ s : State, s.fetchWord.toNat =
    (s.mem.read (s.pc.toNat % 4096)).toNat * 256 + (s.mem.read ((s.pc.toNat + 1) % 4096)).toNat

/-- R43: where no fault is latched and the fetched word decodes to `i`, a Step is `exec i`, and the step of the host's
machine is that followed by what lies between two Steps (`State.betweenSteps`, log entries 1 and 2). -/
def Obligations.StepRunsTheDecodedInstruction : Prop :=
  ∀ (s : State) (i : Instr), s.Running → decodeWord s.fetchWord = some i →
    instrStep s = exec i s ∧ step s = andThen (exec i s) State.betweenSteps

/-- R106, R87, R107, R15: between two Steps the timers count down by some number of Ticks, the same for both and with 0
as the floor, FB_DIRTY may be cleared, the next inputs are taken, and nothing else changes. That these lie inside the
model's step, as free values, is the model's choice (log entries 1 and 2). -/
def Obligations.BetweenStepsTicksClearsAndTakesInputs : Prop :=
  ∀ s : State,
    let t := s.betweenSteps
    (∃ n, t.dt.toNat = s.dt.toNat - n ∧ t.st.toNat = s.st.toNat - n) ∧ (t.fbDirty = true → s.fbDirty = true) ∧
    t.fb = s.fb ∧ t.pc = s.pc ∧ t.steps = s.steps + 1 ∧
    t.keys = Config.keysAt t.steps ∧ t.rand = Config.randAt t.steps ∧
    Frame s t [] [.delayTimer, .soundTimer, .screen, .inputs]

/-- R89, R45: a word that selects no instruction latches `InvalidOpcode`; `PC` is not advanced and nothing else changes
(the latch is the spec's decision D14, log entry 18). -/
def Obligations.InvalidOpcodeChangesOnlyTheLatch : Prop :=
  ∀ s : State, s.Running → decodeWord s.fetchWord = none → instrStep s = .next { s with err := .invalidOpcode }

/-- R50, R97: while a fault is latched a Step has no effect and reports the latched cause, and the fault stays latched
through the step of the host's machine, which leaves everything but the timers, FB_DIRTY and the model's own fields
unchanged (the latch is the spec's decision D14, log entry 18). -/
def Obligations.HaltedEngineDoesNothing : Prop :=
  ∀ s : State, s.err ≠ .none →
    instrStep s = .next s ∧ stepReply s s = .halted s.err ∧
    ∃ t, step s = .next t ∧ t.err = s.err ∧ t.pc = s.pc ∧ t.fb = s.fb ∧
      Frame s t [] [.delayTimer, .soundTimer, .screen, .inputs]

/-- R96, R88: a Step that latches a fault writes `ERR` and nothing else, the fault is one of the three step faults, and
the Step returns the cause, the instruction's address and its word (D14, log entry 18). -/
def Obligations.FaultsArePrecise : Prop :=
  ∀ s t : State, s.Running → instrStep s = .next t → t.err ≠ .none →
    t = { s with err := t.err } ∧ t.err ∈ [.invalidOpcode, .stackOverflow, .stackUnderflow] ∧
    stepReply s t = .faulted t.err s.pc s.fetchWord

/-- R88, R95: the only instructions that latch a fault are RET with `SP = 0` and CALL with `SP = 16`, each its own. -/
def Obligations.OnlyRetAndCallLatchFaults : Prop :=
  ∀ (i : Instr) (s t : State), exec i s = .next t → t.err ≠ s.err →
    (i = .ret ∧ s.sp = 0 ∧ t.err = .stackUnderflow) ∨
    (∃ nnn, i = .call nnn ∧ s.sp = 16 ∧ t.err = .stackOverflow)

/-- R43, R84, R107: a Step that latches no fault returns `waiting` exactly if it runs LD Vx,K with no key held, and then
nothing has changed; else it returns `completed`. -/
def Obligations.StepReturnsItsOutcome : Prop :=
  ∀ s t : State, s.Running → instrStep s = .next t → t.Running →
    let waits := s.keys = 0 ∧ ∃ x, decodeWord s.fetchWord = some (.ldVxK x)
    (stepReply s t = .waiting ↔ waits) ∧ (¬ waits → stepReply s t = .completed) ∧ (waits → t = s)

/-- R107, R29, R103: what Reset, LoadProgram, Step and ClearDirty do and return as operations of the host on a core that
has been reset. LoadProgram is legal once, before the first Step, and refused by name else, which is the spec's decision
D22 (log entry 22). With a fault latched it has no effect (R29, D14, log entry 18); that it then returns the latched cause
is the model's choice (log entry 26). The count of Steps is the model's own (log entry 3). -/
def Obligations.HostOperationsDoAsListed : Prop :=
  ∀ (c : HostedCore) (s t : State) (loaded : Bool) (bytes : List Byte) (k : Word) (b : Byte),
    hostStep .reset c = .next (.live State.reset false, .nothing) ∧
    hostStep .clearDirty (.live s loaded) = .next (.live { s with fbDirty := false } loaded, .nothing) ∧
    (s.Running → s.steps = 0 → hostStep (.loadProgram bytes) (.live s false) =
      .next (.live (s.loadProgram bytes) true, if bytes.length ≤ 3584 then .loaded else .tooLarge bytes.length)) ∧
    (s.err ≠ .none → hostStep (.loadProgram bytes) (.live s loaded) = .next (.live s loaded, .halted s.err)) ∧
    (s.Running → s.steps ≠ 0 → hostStep (.loadProgram bytes) (.live s loaded) = .refused .loadAfterFirstStep) ∧
    (s.Running → s.steps = 0 → hostStep (.loadProgram bytes) (.live s true) = .refused .secondLoad) ∧
    (instrStep { s with keys := k, rand := b } = .next t → hostStep (.step k b) (.live s loaded) =
      .next (.live { t with steps := s.steps + 1 } loaded, stepReply { s with keys := k, rand := b } t))

/-! ### Control transfer -/

/-- R51: RET with no frame latches `StackUnderflow` and changes nothing else; else it goes to the stacked value as it
stands, `SP` counts one frame less, the popped slot keeps its value, and nothing else changes. The latch, with nothing
else changed, is the spec's decision D14 (log entries 4 and 18), the numbering of the slots D13 (log entry 25). -/
def Obligations.RetPopsAFrame : Prop :=
  ∀ s : State,
    (s.sp = 0 → exec .ret s = .next { s with err := .stackUnderflow }) ∧
    (1 ≤ s.sp.toNat → s.sp.toNat ≤ 16 → ∃ a t, s.slot s.sp.toNat = some a ∧ exec .ret s = .next t ∧ t.pc = a ∧
      t.sp.toNat = s.sp.toNat - 1 ∧ Frame s t [] [.stackPointer])

/-- R52: JP goes to the 12-bit address, odd or even, and changes nothing but `PC`. -/
def Obligations.JpGoesToTheAddress : Prop :=
  ∀ (nnn : Addr) (s : State), ∃ t, exec (.jp nnn) s = .next t ∧ t.pc.toNat = nnn.toNat ∧ Frame s t [] []

/-- R53: CALL with 16 frames in use latches `StackOverflow` and changes nothing else; with fewer it stacks `pc_next` in
the slot above, `SP` counts one frame more, it goes to the address, and nothing else changes. The latch, with nothing
else changed, is the spec's decision D14 (log entries 4 and 18), the numbering and count of the slots D13 (log entry 25). -/
def Obligations.CallPushesAFrame : Prop :=
  ∀ (nnn : Addr) (s : State),
    (s.sp = 16 → exec (.call nnn) s = .next { s with err := .stackOverflow }) ∧
    (s.sp.toNat < 16 → ∃ a t, exec (.call nnn) s = .next t ∧ a.toNat = (s.pc.toNat + 2) % 65536 ∧
      t.slot (s.sp.toNat + 1) = some a ∧ (∀ k, k ≠ s.sp.toNat + 1 → t.slot k = s.slot k) ∧
      t.sp.toNat = s.sp.toNat + 1 ∧ t.pc.toNat = nnn.toNat ∧ Frame s t [] [.stackPointer, .stackSlots])

/-- 95_test_vectors.md S7 (source §8): CALL, then RET from any state that has kept the stack, goes to the instruction
after the CALL, with `SP` at its value before the call. -/
def Obligations.RetReturnsAfterTheCall : Prop :=
  ∀ (nnn : Addr) (s u : State), s.sp.toNat < 16 →
    ∃ t, exec (.call nnn) s = .next t ∧
      (u.sp = t.sp → u.stack = t.stack →
        ∃ w, exec .ret u = .next w ∧ w.pc.toNat = (s.pc.toNat + 2) % 65536 ∧ w.sp = s.sp)

/-- The model's choice, log entry 5: with `SP` above 16, which R10 says never happens, RET and CALL would touch a slot
that does not exist, and stop with a fault of the model. -/
def Obligations.RetAndCallStopOutsideTheStack : Prop :=
  ∀ (nnn : Addr) (s : State), 16 < s.sp.toNat →
    exec .ret s = .fault .noSuchStackSlot ∧ exec (.call nnn) s = .fault .noSuchStackSlot

/-- R54, R55: SE and SNE with an immediate skip when the register equals, or differs from, the immediate; nothing
changes but `PC`. -/
def Obligations.SkipsOnImmediate : Prop :=
  ∀ (x : Reg) (kk : Byte) (s : State),
    (∃ t, exec (.seImm x kk) s = .next t ∧ SkipsIf ((s.reg x).toNat = kk.toNat) s t ∧ Frame s t [] []) ∧
    (∃ t, exec (.sneImm x kk) s = .next t ∧ SkipsIf ((s.reg x).toNat ≠ kk.toNat) s t ∧ Frame s t [] [])

/-- R56, R57: SE and SNE of two registers skip when they are equal, or differ; nothing changes but `PC`. -/
def Obligations.SkipsOnRegister : Prop :=
  ∀ (x y : Reg) (s : State),
    (∃ t, exec (.seReg x y) s = .next t ∧ SkipsIf ((s.reg x).toNat = (s.reg y).toNat) s t ∧ Frame s t [] []) ∧
    (∃ t, exec (.sneReg x y) s = .next t ∧ SkipsIf ((s.reg x).toNat ≠ (s.reg y).toNat) s t ∧ Frame s t [] [])

/-- R58: JP V0 goes to the address plus `V[0]`, all 16 bits of the sum kept (D12, log entry 16); nothing changes but
`PC`. -/
def Obligations.JpV0AddsV0 : Prop :=
  ∀ (nnn : Addr) (s : State), ∃ t, exec (.jpV0 nnn) s = .next t ∧
    t.pc.toNat = nnn.toNat + (s.reg 0).toNat ∧ Frame s t [] []

/-! ### Registers and ALU -/

/-- R59, R61: the two assignments; VF is written only as the destination. -/
def Obligations.LdWritesItsRegister : Prop :=
  ∀ (x y : Reg) (kk : Byte) (s : State),
    (∃ t, exec (.ldImm x kk) s = .next t ∧ t.reg x = kk ∧ AtNext s t ∧ Frame s t [x] []) ∧
    (∃ t, exec (.ldReg x y) s = .next t ∧ t.reg x = s.reg y ∧ AtNext s t ∧ Frame s t [x] [])

/-- R60: ADD of an immediate wraps mod 256 and sets no flag. -/
def Obligations.AddImmediateWrapsWithoutFlag : Prop :=
  ∀ (x : Reg) (kk : Byte) (s : State), ∃ t, exec (.addImm x kk) s = .next t ∧
    (t.reg x).toNat = ((s.reg x).toNat + kk.toNat) % 256 ∧ AtNext s t ∧ Frame s t [x] []

/-- R62 to R64: OR, AND and XOR combine each bit on its own and leave VF alone. -/
def Obligations.LogicCombinesBits : Prop :=
  ∀ (x y : Reg) (s : State),
    (∃ t, exec (.orReg x y) s = .next t ∧
      (∀ k < 8, (t.reg x).getLsbD k = ((s.reg x).getLsbD k || (s.reg y).getLsbD k)) ∧ AtNext s t ∧ Frame s t [x] []) ∧
    (∃ t, exec (.andReg x y) s = .next t ∧
      (∀ k < 8, (t.reg x).getLsbD k = ((s.reg x).getLsbD k && (s.reg y).getLsbD k)) ∧ AtNext s t ∧ Frame s t [x] []) ∧
    (∃ t, exec (.xorReg x y) s = .next t ∧
      (∀ k < 8, (t.reg x).getLsbD k = ((s.reg x).getLsbD k ^^ (s.reg y).getLsbD k)) ∧ AtNext s t ∧ Frame s t [x] [])

/-- R65: ADD of two registers: the low 8 bits of the 9-bit sum, and the carry in VF. With VF as the destination only the
carry remains, which is the spec's decision D8 (R48, log entry 14). -/
def Obligations.AddSetsCarry : Prop :=
  ∀ (x y : Reg) (s : State), ∃ t, exec (.addReg x y) s = .next t ∧
    (x ≠ VF → (t.reg x).toNat = ((s.reg x).toNat + (s.reg y).toNat) % 256) ∧
    (t.reg VF).toNat = (if (s.reg x).toNat + (s.reg y).toNat > 255 then 1 else 0) ∧
    AtNext s t ∧ Frame s t [x, VF] []

/-- R66, R68: SUB and SUBN: the difference mod 256, and the not-borrow in VF, 1 at equality (C1). With VF as the
destination only the flag remains, which is the spec's decision D8 (R48, log entry 14). -/
def Obligations.SubtractSetsNotBorrow : Prop :=
  ∀ (x y : Reg) (s : State),
    (∃ t, exec (.sub x y) s = .next t ∧
      (x ≠ VF → (t.reg x).toNat = ((s.reg x).toNat + 256 - (s.reg y).toNat) % 256) ∧
      (t.reg VF).toNat = (if (s.reg x).toNat ≥ (s.reg y).toNat then 1 else 0) ∧ AtNext s t ∧ Frame s t [x, VF] []) ∧
    (∃ t, exec (.subn x y) s = .next t ∧
      (x ≠ VF → (t.reg x).toNat = ((s.reg y).toNat + 256 - (s.reg x).toNat) % 256) ∧
      (t.reg VF).toNat = (if (s.reg y).toNat ≥ (s.reg x).toNat then 1 else 0) ∧ AtNext s t ∧ Frame s t [x, VF] [])

/-- R67, R69: SHR and SHL shift `V[x]` in place by one, and VF is the bit moved out, 0 or 1. With VF as the destination
only the flag remains, which is the spec's decision D8 (R48, log entry 14); in place is D26 (log entry 20). -/
def Obligations.ShiftsMoveOneBitOut : Prop :=
  ∀ (x : Reg) (s : State),
    (∃ t, exec (.shr x) s = .next t ∧ (x ≠ VF → (t.reg x).toNat = (s.reg x).toNat / 2) ∧
      (t.reg VF).toNat = (s.reg x).toNat % 2 ∧ AtNext s t ∧ Frame s t [x, VF] []) ∧
    (∃ t, exec (.shl x) s = .next t ∧ (x ≠ VF → (t.reg x).toNat = (s.reg x).toNat * 2 % 256) ∧
      (t.reg VF).toNat = (s.reg x).toNat / 128 ∧ AtNext s t ∧ Frame s t [x, VF] [])

/-! ### Index register and memory -/

/-- R71: LD I takes the 12-bit address, whatever it is. -/
def Obligations.LdITakesTheAddress : Prop :=
  ∀ (nnn : Addr) (s : State), ∃ t, exec (.ldI nnn) s = .next t ∧ t.i.toNat = nnn.toNat ∧ AtNext s t ∧
    Frame s t [] [.index]

/-- R72: ADD I wraps in the 12-bit space, which is the spec's decision D10 (log entry 16); VF is not changed. -/
def Obligations.AddIWrapsInTwelveBits : Prop :=
  ∀ (x : Reg) (s : State), ∃ t, exec (.addI x) s = .next t ∧
    t.i.toNat = (s.i.toNat + (s.reg x).toNat) % 4096 ∧ AtNext s t ∧ Frame s t [] [.index]

/-- R73: LD F takes five times the whole register; for a digit that is the address of its glyph. -/
def Obligations.LdFPointsAtTheGlyph : Prop :=
  ∀ (x : Reg) (s : State), ∃ t, exec (.ldF x) s = .next t ∧ t.i.toNat = (s.reg x).toNat * 5 ∧ AtNext s t ∧
    Frame s t [] [.index]

/-- R74: LD B stores hundreds, tens and ones at `I`, `I + 1`, `I + 2`, each address mod 4096 (R20, D11, log entry 16);
every other byte, and everything else, is unchanged. -/
def Obligations.LdBStoresThreeDigits : Prop :=
  ∀ (x : Reg) (s : State), ∃ t, exec (.ldB x) s = .next t ∧
    (t.mem.read (s.i.toNat % 4096)).toNat = (s.reg x).toNat / 100 ∧
    (t.mem.read ((s.i.toNat + 1) % 4096)).toNat = (s.reg x).toNat / 10 % 10 ∧
    (t.mem.read ((s.i.toNat + 2) % 4096)).toNat = (s.reg x).toNat % 10 ∧
    (∀ a, (∀ k < 3, a ≠ (s.i.toNat + k) % 4096) → t.mem.read a = s.mem.read a) ∧
    AtNext s t ∧ Frame s t [] [.memory]

/-- R75: LD [I],Vx stores `V[0]` to `V[x]`, both included, from `I` on, each address mod 4096 (R20, D11, log entry 16);
every other byte, `I` (D9, log entry 15) and everything else is unchanged. -/
def Obligations.LdMemVxStoresTheRegisters : Prop :=
  ∀ (x : Reg) (s : State), ∃ t, exec (.ldMemVx x) s = .next t ∧
    (∀ k : Reg, k ≤ x → t.mem.read ((s.i.toNat + k.val) % 4096) = s.reg k) ∧
    (∀ a, (∀ k ≤ x.val, a ≠ (s.i.toNat + k) % 4096) → t.mem.read a = s.mem.read a) ∧
    AtNext s t ∧ Frame s t [] [.memory]

/-- R76: LD Vx,[I] loads `V[0]` to `V[x]`, both included, from `I` on, each address mod 4096 (R20, D11, log entry 16);
the registers above, `I` (D9, log entry 15), memory and everything else are unchanged. -/
def Obligations.LdVxMemLoadsTheRegisters : Prop :=
  ∀ (x : Reg) (s : State), ∃ t, exec (.ldVxMem x) s = .next t ∧
    (∀ k : Reg, k ≤ x → t.reg k = s.mem.read ((s.i.toNat + k.val) % 4096)) ∧
    (∀ k : Reg, x < k → t.reg k = s.reg k) ∧
    AtNext s t ∧ Frame s t ((List.finRange 16).filter fun k => decide (k ≤ x)) []

/-! ### Display -/

/-- R77: CLS sets every cell to 0 and marks the framebuffer dirty, whatever it held; VF and everything else are unchanged
(that the core owns the framebuffer, and its size, is the spec's decision D5, log entry 12). -/
def Obligations.ClsClearsEveryCell : Prop :=
  ∀ s : State, ∃ t, exec .cls s = .next t ∧ (∀ px < 64, ∀ py < 32, t.cell px py = false) ∧ t.fbDirty = true ∧
    AtNext s t ∧ Frame s t [] [.screen]

/-- R78, R79: DRW flips exactly the cells that a set pixel of the sprite falls on, marks the framebuffer dirty, and
changes nothing else but VF and `PC`. Size, bit order and wrapping of pixels are the spec's decisions D5 to D7 (log
entries 12 and 13). -/
def Obligations.DrwFlipsTheCoveredCells : Prop :=
  ∀ (x y : Reg) (n : Nibble) (s : State), ∃ t, exec (.drw x y n) s = .next t ∧
    (∀ px < 64, ∀ py < 32, (s.SpriteCovers x y n px py → t.cell px py = !s.cell px py) ∧
      (¬ s.SpriteCovers x y n px py → t.cell px py = s.cell px py)) ∧
    t.fbDirty = true ∧ AtNext s t ∧ Frame s t [VF] [.screen]

/-- R78, R79: after DRW, VF is 1 if some cell went from 1 to 0, else 0 (framebuffer size: D5, log entry 12). -/
def Obligations.DrwReportsCollision : Prop :=
  ∀ (x y : Reg) (n : Nibble) (s : State), ∃ t, exec (.drw x y n) s = .next t ∧
    (t.reg VF = 0 ∨ t.reg VF = 1) ∧
    (t.reg VF = 1 ↔ ∃ px < 64, ∃ py < 32, s.cell px py = true ∧ t.cell px py = false)

/-- R78: drawing the same sprite twice at the same place restores every cell, from any framebuffer; and where the first
drawing set a cell that was 0, the second reports a collision (XOR self-cancel; S5). The coordinates are not VF, which the
first drawing overwrites. -/
def Obligations.DrwTwiceRestoresTheScreen : Prop :=
  ∀ (x y : Reg) (n : Nibble) (s : State), x ≠ VF → y ≠ VF →
    ∃ t u, exec (.drw x y n) s = .next t ∧ exec (.drw x y n) t = .next u ∧ u.fb = s.fb ∧
      ((∃ px < 64, ∃ py < 32, s.cell px py = false ∧ t.cell px py = true) → u.reg VF = 1)

/-! ### Random, keys, timers -/

/-- R80: RND writes the draw under the mask. -/
def Obligations.RndMasksTheDraw : Prop :=
  ∀ (x : Reg) (kk : Byte) (s : State), ∃ t, exec (.rnd x kk) s = .next t ∧ t.reg x = s.rand &&& kk ∧ AtNext s t ∧
    Frame s t [x] []

/-- R81, R82: SKP and SKNP skip when the key numbered by the content of `V[x]` is, or is not, held; a number above 15 is
of no key, so it is not held, which is the spec's decision D16 (log entry 17). -/
def Obligations.KeySkipsReadTheMask : Prop :=
  ∀ (x : Reg) (s : State),
    let held := (s.reg x).toNat ≤ 15 ∧ s.keys.getLsbD (s.reg x).toNat = true
    (∃ t, exec (.skp x) s = .next t ∧ SkipsIf held s t ∧ Frame s t [] []) ∧
    (∃ t, exec (.sknp x) s = .next t ∧ SkipsIf (¬ held) s t ∧ Frame s t [] [])

/-- R83, R85, R86: LD Vx,DT copies the delay timer and leaves it; the two timers are set from a register, and a delay timer
set to 0 stays at 0 through a Tick. -/
def Obligations.TimerMoves : Prop :=
  ∀ (x : Reg) (s : State),
    (∃ t, exec (.ldVxDt x) s = .next t ∧ t.reg x = s.dt ∧ AtNext s t ∧ Frame s t [x] []) ∧
    (∃ t, exec (.ldDtVx x) s = .next t ∧ t.dt = s.reg x ∧ (s.reg x = 0 → t.tick.dt = 0) ∧
      AtNext s t ∧ Frame s t [] [.delayTimer]) ∧
    (∃ t, exec (.ldStVx x) s = .next t ∧ t.st = s.reg x ∧ AtNext s t ∧ Frame s t [] [.soundTimer])

/-- R84: with no key held LD Vx,K changes nothing at all. -/
def Obligations.LdVxKWaitsWithNoKey : Prop :=
  ∀ (x : Reg) (s : State), s.keys = 0 → exec (.ldVxK x) s = .next s

/-- R84: with a key held LD Vx,K stores a key number and ends; that it is the lowest held key is the spec's decision D15
(log entry 17). -/
def Obligations.LdVxKStoresTheLeastKey : Prop :=
  ∀ (x : Reg) (s : State), s.keys ≠ 0 → ∃ t, exec (.ldVxK x) s = .next t ∧
    (t.reg x).toNat ≤ 15 ∧ s.keys.getLsbD (t.reg x).toNat = true ∧
    (∀ k < (t.reg x).toNat, s.keys.getLsbD k = false) ∧ AtNext s t ∧ Frame s t [x] []

/-- R87: Tick takes each timer one down, with 0 as the floor, whether or not a fault is latched (D25), and changes nothing
else. -/
def Obligations.TickCountsBothTimersDown : Prop :=
  ∀ (s : State) (loaded : Bool), hostStep .tick (.live s loaded) = .next (.live s.tick loaded, .nothing) ∧
    s.tick.dt.toNat = s.dt.toNat - 1 ∧ s.tick.st.toNat = s.st.toNat - 1 ∧ s.tick.pc = s.pc ∧
    Frame s s.tick [] [.delayTimer, .soundTimer]

/-! ### The whole machine -/

/-- R5, R8, R10: every step from a state of legal values ends in one: `I` stays a 12-bit value, `SP` stays in 0 to 16, the
memory list stays canonical (log entry 9). -/
def Obligations.StepKeepsLegalValues : Prop := ∀ s t : State, s.Inv → step s = .next t → t.Inv

/-- R16, R5: the state after Reset holds legal values. -/
def Obligations.ResetHoldsLegalValues : Prop := State.reset.Inv

/-- R43, R10: from a state of legal values a step always answers a next state; the model never stops there. -/
def Obligations.LegalStatesAlwaysStep : Prop := ∀ s : State, s.Inv → ∃ t, step s = .next t

/-- R107, R103, R29: every operation of the host leaves a core that has been reset, with legal values, or is refused; refused
are only the operations before the first Reset (U21) and, with no fault latched, a LoadProgram after the first Step or
after another one (D22, log entry 22). Reset is never refused. -/
def Obligations.HostOperationsKeepLegalValues : Prop :=
  ∀ (op : HostOp) (c : HostedCore), c.Inv →
    (∃ t loaded reply, hostStep op c = .next (.live t loaded, reply) ∧ t.Inv) ∨
    (op ≠ .reset ∧ ∃ r, hostStep op c = .refused r ∧
      (c = .neverReset ∨ ∃ bytes s loaded, op = .loadProgram bytes ∧ c = .live s loaded ∧ s.Running ∧
        (s.steps ≠ 0 ∨ loaded = true)))

/-- R6, R7: an instruction changes no register but those it names as destinations, and VF where it is one of the
flag-writing instructions, which leave 0 or 1 in it. The list of those instructions is R7's own (log entry 19). -/
def Obligations.OnlyDestinationsAndFlagsChange : Prop :=
  ∀ (i : Instr) (s t : State), exec i s = .next t →
    (∀ r, i.hasDestination r = false → (r ≠ VF ∨ i.writesFlag = false) → t.reg r = s.reg r) ∧
    (i.writesFlag = true → t.reg VF = 0 ∨ t.reg VF = 1)

/-- R18, R25, R5: only LD B and LD [I],Vx change a byte of memory; only CALL changes a stack slot; only CALL and RET
change `SP`. -/
def Obligations.OnlyStoresAndCallsWriteMemoryAndStack : Prop :=
  ∀ (i : Instr) (s t : State), exec i s = .next t →
    ((∃ a, t.mem.read a ≠ s.mem.read a) → ∃ x, i = .ldB x ∨ i = .ldMemVx x) ∧
    ((∃ k, t.slot k ≠ s.slot k) → ∃ nnn, i = .call nnn) ∧
    (t.sp ≠ s.sp → i = .ret ∨ ∃ nnn, i = .call nnn)

/-- R15, R11: an instruction other than SKP, SKNP and LD Vx,K does the same whatever the key mask is; one other than RND
whatever the random byte is; and none but LD ST,Vx, which overwrites it, tells one value of ST from another. -/
def Obligations.InputsAndSoundTimerAreNotSeen : Prop :=
  ∀ (i : Instr) (s : State),
    ((∀ x, i ≠ .skp x ∧ i ≠ .sknp x ∧ i ≠ .ldVxK x) → ∀ k : Word,
      exec i { s with keys := k } = andThen (exec i s) fun t => { t with keys := k }) ∧
    ((∀ x kk, i ≠ .rnd x kk) → ∀ b : Byte,
      exec i { s with rand := b } = andThen (exec i s) fun t => { t with rand := b }) ∧
    ((∀ x, i ≠ .ldStVx x) → ∀ b : Byte,
      exec i { s with st := b } = andThen (exec i s) fun t => { t with st := b })

/-- R29, R92: LoadProgram puts an image of at most 3584 bytes at 0x200, byte for byte, and leaves every other byte and
everything else; a longer one latches `ProgramTooLarge` and writes nothing; while a fault is latched it has no effect.
The all-or-nothing check and the latch are the spec's decisions D14 and D22 (log entries 18 and 22). -/
def Obligations.LoadProgramCopiesOrFaults : Prop :=
  ∀ (bytes : List Byte) (s : State),
    (s.Running → bytes.length ≤ 3584 →
      (∀ (k : Nat) (hk : k < bytes.length), (s.loadProgram bytes).mem.read (0x200 + k) = bytes[k]) ∧
      (∀ a, (a < 0x200 ∨ 0x200 + bytes.length ≤ a) → (s.loadProgram bytes).mem.read a = s.mem.read a) ∧
      (s.loadProgram bytes).pc = s.pc ∧ Frame s (s.loadProgram bytes) [] [.memory]) ∧
    (s.Running → 3584 < bytes.length → s.loadProgram bytes = { s with err := .programTooLarge }) ∧
    (s.err ≠ .none → s.loadProgram bytes = s)

/-- R16, R103, R19: the state after Reset; with no program loaded the first Step raises `InvalidOpcode` (R104). The values
of I, SP, FB and FB_DIRTY are the spec's decision D20 (log entry 21), the 80 font bytes D4 (log entry 11), the latch D14
(log entry 18). -/
def Obligations.ResetStateIsAsTabulated : Prop :=
  let s := State.reset
  s.pc = 0x0200 ∧ (∀ r, s.reg r = 0) ∧ s.i = 0 ∧ s.sp = 0 ∧ (∀ k, 1 ≤ k → k ≤ 16 → s.slot k = some 0) ∧
  s.dt = 0 ∧ s.st = 0 ∧ (∀ px < 64, ∀ py < 32, s.cell px py = false) ∧ s.fbDirty = false ∧ s.err = .none ∧
  (∀ a, 80 ≤ a → s.mem.read a = 0) ∧
  (List.range 80).map s.mem.read =
    [0xF0, 0x90, 0x90, 0x90, 0xF0] ++ [0x20, 0x60, 0x20, 0x20, 0x70] ++ [0xF0, 0x10, 0xF0, 0x80, 0xF0] ++
    [0xF0, 0x10, 0xF0, 0x10, 0xF0] ++ [0x90, 0x90, 0xF0, 0x10, 0x10] ++ [0xF0, 0x80, 0xF0, 0x10, 0xF0] ++
    [0xF0, 0x80, 0xF0, 0x90, 0xF0] ++ [0xF0, 0x10, 0x20, 0x40, 0x40] ++ [0xF0, 0x90, 0xF0, 0x90, 0xF0] ++
    [0xF0, 0x90, 0xF0, 0x10, 0xF0] ++ [0xF0, 0x90, 0xF0, 0x90, 0x90] ++ [0xE0, 0x90, 0xE0, 0x90, 0xE0] ++
    [0xF0, 0x80, 0x80, 0x80, 0xF0] ++ [0xE0, 0x90, 0x90, 0x90, 0xE0] ++ [0xF0, 0x80, 0xF0, 0x80, 0xF0] ++
    [0xF0, 0x80, 0xF0, 0x80, 0x80] ∧
  instrStep s = .next { s with err := .invalidOpcode }

/-- R108 (FINISHED is the spec's decision D28, log entry 23): from a finished state every Step leaves all state
unchanged, so every step of the host's machine ends finished at the same address. -/
def Obligations.FinishedStatesStayFinished : Prop :=
  ∀ (s : State) (a : Addr), s.FinishedAt a →
    instrStep s = .next s ∧ ∃ t, step s = .next t ∧ t.FinishedAt a

/-- R28: a stored byte is what a later fetch reads: after LD [I],Vx, a Step that fetches at the stored place, with nothing
else done, reads the registers' bytes. -/
def Obligations.StoresAreSeenByTheNextFetch : Prop :=
  ∀ (x k : Reg) (s u : State), k < x → ∃ t, exec (.ldMemVx x) s = .next t ∧
    (u.mem = t.mem → u.pc.toNat % 4096 = (s.i.toNat + k.val) % 4096 →
      u.fetchWord.toNat = (s.reg k).toNat * 256 + (s.reg (k + 1)).toNat)

/-- The model's choice of form, log entry 9: two canonical memory lists that read the same at every address are equal, so
equal memories are equal data; and the list after Reset is canonical. -/
def Obligations.CanonicalMemoryIsUnique : Prop :=
  (∀ m m' : Memory, m.wf = true → m'.wf = true → (∀ a, m.read a = m'.read a) → m = m') ∧
  State.reset.mem.wf = true

/-- R103, R107, R16 (U21): on a core that has never been reset Reset is legal and gives the reset state, and every other
operation is refused by name. -/
def Obligations.OnlyResetIsLegalBeforeReset : Prop :=
  ∀ op : HostOp,
    hostStep .reset .neverReset = .next (.live State.reset false, .nothing) ∧
    (op ≠ .reset → hostStep op .neverReset = .refused .beforeFirstReset)

end
end

