-- ==== Sys2Proof/Laws/Decode.lean ====
section
/-! SUPPORT. What the decoder reads from a word put together from fields, and the two ways between a register and its
field. -/

namespace Sys2Proof

@[simp] theorem nibbleReg_regNibble (x : Reg) : nibbleReg (regNibble x) = x := rfl

@[simp] theorem regNibble_nibbleReg (b : Nibble) : regNibble (nibbleReg b) = b := rfl

theorem regNibble_toNat (x : Reg) : (regNibble x).toNat = x.val := rfl

theorem nibbleReg_val (b : Nibble) : (nibbleReg b).val = b.toNat := rfl

theorem append_toNat {m n : Nat} (a : BitVec m) (b : BitVec n) : (a ++ b).toNat = a.toNat * 2 ^ n + b.toNat := by
  rw [BitVec.toNat_append, ← Nat.shiftLeft_add_eq_or_of_lt b.isLt, Nat.shiftLeft_eq]

theorem extract_toNat {w : Nat} (op : BitVec w) (low len : Nat) :
    (op.extractLsb' low len).toNat = op.toNat / 2 ^ low % 2 ^ len := by
  rw [BitVec.extractLsb'_toNat, Nat.shiftRight_eq_div_pow]

/-- A word of format NNN as a number (R36). -/
theorem wordNNN_toNat (top : Nibble) (nnn : Addr) : (wordNNN top nnn).toNat = top.toNat * 4096 + nnn.toNat :=
  append_toNat ..

/-- A word of format XKK or X as a number (R36). -/
theorem wordXKK_toNat (top : Nibble) (x : Reg) (kk : Byte) :
    (wordXKK top x kk).toNat = top.toNat * 4096 + x.val * 256 + kk.toNat := by
  have h : (wordXKK top x kk).toNat = (top.toNat * 2 ^ 4 + (regNibble x).toNat) * 2 ^ 8 + kk.toNat :=
    (append_toNat ..).trans (by rw [append_toNat])
  rw [h, regNibble_toNat]
  omega

/-- A word of format XYN or XY as a number (R36). -/
theorem wordXYN_toNat (top : Nibble) (x y : Reg) (n : Nibble) :
    (wordXYN top x y n).toNat = top.toNat * 4096 + x.val * 256 + y.val * 16 + n.toNat := by
  have h : (wordXYN top x y n).toNat =
      ((top.toNat * 2 ^ 4 + (regNibble x).toNat) * 2 ^ 4 + (regNibble y).toNat) * 2 ^ 4 + n.toNat :=
    (append_toNat ..).trans (by rw [append_toNat, append_toNat])
  rw [h, regNibble_toNat, regNibble_toNat]
  omega

/-- The fields of a word of format NNN (R32, R34). -/
theorem decodeFields_wordNNN (top : Nibble) (nnn : Addr) :
    (decodeFields (wordNNN top nnn)).top = top ∧ (decodeFields (wordNNN top nnn)).nnn = nnn := by
  have h := wordNNN_toNat top nnn
  have := top.isLt
  have := nnn.isLt
  constructor <;> apply BitVec.eq_of_toNat_eq <;> simp only [decodeFields, extract_toNat, h] <;> omega

/-- The fields of a word of format XKK or X (R32, R34). -/
theorem decodeFields_wordXKK (top : Nibble) (x : Reg) (kk : Byte) :
    (decodeFields (wordXKK top x kk)).top = top ∧ (decodeFields (wordXKK top x kk)).rx = x ∧
      (decodeFields (wordXKK top x kk)).kk = kk := by
  have h := wordXKK_toNat top x kk
  have := top.isLt
  have := x.isLt
  have := kk.isLt
  refine ⟨BitVec.eq_of_toNat_eq ?_, Fin.ext ?_, BitVec.eq_of_toNat_eq ?_⟩ <;>
    simp only [decodeFields, Fields.rx, nibbleReg_val, extract_toNat, h] <;> omega

/-- The fields of a word of format XYN or XY (R32, R34). -/
theorem decodeFields_wordXYN (top : Nibble) (x y : Reg) (n : Nibble) :
    (decodeFields (wordXYN top x y n)).top = top ∧ (decodeFields (wordXYN top x y n)).rx = x ∧
      (decodeFields (wordXYN top x y n)).ry = y ∧ (decodeFields (wordXYN top x y n)).n = n := by
  have h := wordXYN_toNat top x y n
  have := top.isLt
  have := x.isLt
  have := y.isLt
  have := n.isLt
  refine ⟨BitVec.eq_of_toNat_eq ?_, Fin.ext ?_, Fin.ext ?_, BitVec.eq_of_toNat_eq ?_⟩ <;>
    simp only [decodeFields, Fields.rx, Fields.ry, nibbleReg_val, extract_toNat, h] <;> omega

end Sys2Proof
end

