-- ==== Sys2Proof/Laws/State.lean ====
section
/-! SUPPORT. What each named update of the state does to each field: one lemma per field per update. -/

namespace Sys2Proof.Machine

variable (s : State)

/-! ### `State.setReg` -/

@[simp] theorem State.setReg_v (x : Reg) (b : Byte) : (s.setReg x b).v = s.v.set x b := rfl
@[simp] theorem State.setReg_i (x : Reg) (b : Byte) : (s.setReg x b).i = s.i := rfl
@[simp] theorem State.setReg_pc (x : Reg) (b : Byte) : (s.setReg x b).pc = s.pc := rfl
@[simp] theorem State.setReg_sp (x : Reg) (b : Byte) : (s.setReg x b).sp = s.sp := rfl
@[simp] theorem State.setReg_stack (x : Reg) (b : Byte) : (s.setReg x b).stack = s.stack := rfl
@[simp] theorem State.setReg_dt (x : Reg) (b : Byte) : (s.setReg x b).dt = s.dt := rfl
@[simp] theorem State.setReg_st (x : Reg) (b : Byte) : (s.setReg x b).st = s.st := rfl
@[simp] theorem State.setReg_mem (x : Reg) (b : Byte) : (s.setReg x b).mem = s.mem := rfl
@[simp] theorem State.setReg_fb (x : Reg) (b : Byte) : (s.setReg x b).fb = s.fb := rfl
@[simp] theorem State.setReg_fbDirty (x : Reg) (b : Byte) : (s.setReg x b).fbDirty = s.fbDirty := rfl
@[simp] theorem State.setReg_err (x : Reg) (b : Byte) : (s.setReg x b).err = s.err := rfl
@[simp] theorem State.setReg_keys (x : Reg) (b : Byte) : (s.setReg x b).keys = s.keys := rfl
@[simp] theorem State.setReg_rand (x : Reg) (b : Byte) : (s.setReg x b).rand = s.rand := rfl
@[simp] theorem State.setReg_steps (x : Reg) (b : Byte) : (s.setReg x b).steps = s.steps := rfl
@[simp] theorem State.setReg_slot (x : Reg) (b : Byte) (m : Nat) : (s.setReg x b).slot m = s.slot m := rfl
@[simp] theorem State.setReg_readByte (x : Reg) (b : Byte) (m : Word) : (s.setReg x b).readByte m = s.readByte m := rfl

/-! ### `State.setRegFlag` -/

@[simp] theorem State.setRegFlag_v (x : Reg) (b f : Byte) : (s.setRegFlag x b f).v = (s.v.set x b).set VF f := rfl
@[simp] theorem State.setRegFlag_i (x : Reg) (b f : Byte) : (s.setRegFlag x b f).i = s.i := rfl
@[simp] theorem State.setRegFlag_pc (x : Reg) (b f : Byte) : (s.setRegFlag x b f).pc = s.pc := rfl
@[simp] theorem State.setRegFlag_sp (x : Reg) (b f : Byte) : (s.setRegFlag x b f).sp = s.sp := rfl
@[simp] theorem State.setRegFlag_stack (x : Reg) (b f : Byte) : (s.setRegFlag x b f).stack = s.stack := rfl
@[simp] theorem State.setRegFlag_dt (x : Reg) (b f : Byte) : (s.setRegFlag x b f).dt = s.dt := rfl
@[simp] theorem State.setRegFlag_st (x : Reg) (b f : Byte) : (s.setRegFlag x b f).st = s.st := rfl
@[simp] theorem State.setRegFlag_mem (x : Reg) (b f : Byte) : (s.setRegFlag x b f).mem = s.mem := rfl
@[simp] theorem State.setRegFlag_fb (x : Reg) (b f : Byte) : (s.setRegFlag x b f).fb = s.fb := rfl
@[simp] theorem State.setRegFlag_fbDirty (x : Reg) (b f : Byte) : (s.setRegFlag x b f).fbDirty = s.fbDirty := rfl
@[simp] theorem State.setRegFlag_err (x : Reg) (b f : Byte) : (s.setRegFlag x b f).err = s.err := rfl
@[simp] theorem State.setRegFlag_keys (x : Reg) (b f : Byte) : (s.setRegFlag x b f).keys = s.keys := rfl
@[simp] theorem State.setRegFlag_rand (x : Reg) (b f : Byte) : (s.setRegFlag x b f).rand = s.rand := rfl
@[simp] theorem State.setRegFlag_steps (x : Reg) (b f : Byte) : (s.setRegFlag x b f).steps = s.steps := rfl
@[simp] theorem State.setRegFlag_slot (x : Reg) (b f : Byte) (m : Nat) : (s.setRegFlag x b f).slot m = s.slot m := rfl
@[simp] theorem State.setRegFlag_readByte (x : Reg) (b f : Byte) (m : Word) : (s.setRegFlag x b f).readByte m = s.readByte m := rfl

/-! ### `State.setRegsUpTo` -/

@[simp] theorem State.setRegsUpTo_v (x : Reg) (f : Reg → Byte) : (s.setRegsUpTo x f).v = Vector.ofFn fun k => if k ≤ x then f k else s.v[k] := rfl
@[simp] theorem State.setRegsUpTo_i (x : Reg) (f : Reg → Byte) : (s.setRegsUpTo x f).i = s.i := rfl
@[simp] theorem State.setRegsUpTo_pc (x : Reg) (f : Reg → Byte) : (s.setRegsUpTo x f).pc = s.pc := rfl
@[simp] theorem State.setRegsUpTo_sp (x : Reg) (f : Reg → Byte) : (s.setRegsUpTo x f).sp = s.sp := rfl
@[simp] theorem State.setRegsUpTo_stack (x : Reg) (f : Reg → Byte) : (s.setRegsUpTo x f).stack = s.stack := rfl
@[simp] theorem State.setRegsUpTo_dt (x : Reg) (f : Reg → Byte) : (s.setRegsUpTo x f).dt = s.dt := rfl
@[simp] theorem State.setRegsUpTo_st (x : Reg) (f : Reg → Byte) : (s.setRegsUpTo x f).st = s.st := rfl
@[simp] theorem State.setRegsUpTo_mem (x : Reg) (f : Reg → Byte) : (s.setRegsUpTo x f).mem = s.mem := rfl
@[simp] theorem State.setRegsUpTo_fb (x : Reg) (f : Reg → Byte) : (s.setRegsUpTo x f).fb = s.fb := rfl
@[simp] theorem State.setRegsUpTo_fbDirty (x : Reg) (f : Reg → Byte) : (s.setRegsUpTo x f).fbDirty = s.fbDirty := rfl
@[simp] theorem State.setRegsUpTo_err (x : Reg) (f : Reg → Byte) : (s.setRegsUpTo x f).err = s.err := rfl
@[simp] theorem State.setRegsUpTo_keys (x : Reg) (f : Reg → Byte) : (s.setRegsUpTo x f).keys = s.keys := rfl
@[simp] theorem State.setRegsUpTo_rand (x : Reg) (f : Reg → Byte) : (s.setRegsUpTo x f).rand = s.rand := rfl
@[simp] theorem State.setRegsUpTo_steps (x : Reg) (f : Reg → Byte) : (s.setRegsUpTo x f).steps = s.steps := rfl
@[simp] theorem State.setRegsUpTo_slot (x : Reg) (f : Reg → Byte) (m : Nat) : (s.setRegsUpTo x f).slot m = s.slot m := rfl
@[simp] theorem State.setRegsUpTo_readByte (x : Reg) (f : Reg → Byte) (m : Word) : (s.setRegsUpTo x f).readByte m = s.readByte m := rfl

/-! ### `State.setI` -/

@[simp] theorem State.setI_v (a : Word) : (s.setI a).v = s.v := rfl
@[simp] theorem State.setI_i (a : Word) : (s.setI a).i = a := rfl
@[simp] theorem State.setI_pc (a : Word) : (s.setI a).pc = s.pc := rfl
@[simp] theorem State.setI_sp (a : Word) : (s.setI a).sp = s.sp := rfl
@[simp] theorem State.setI_stack (a : Word) : (s.setI a).stack = s.stack := rfl
@[simp] theorem State.setI_dt (a : Word) : (s.setI a).dt = s.dt := rfl
@[simp] theorem State.setI_st (a : Word) : (s.setI a).st = s.st := rfl
@[simp] theorem State.setI_mem (a : Word) : (s.setI a).mem = s.mem := rfl
@[simp] theorem State.setI_fb (a : Word) : (s.setI a).fb = s.fb := rfl
@[simp] theorem State.setI_fbDirty (a : Word) : (s.setI a).fbDirty = s.fbDirty := rfl
@[simp] theorem State.setI_err (a : Word) : (s.setI a).err = s.err := rfl
@[simp] theorem State.setI_keys (a : Word) : (s.setI a).keys = s.keys := rfl
@[simp] theorem State.setI_rand (a : Word) : (s.setI a).rand = s.rand := rfl
@[simp] theorem State.setI_steps (a : Word) : (s.setI a).steps = s.steps := rfl
@[simp] theorem State.setI_reg (a : Word) (r : Reg) : (s.setI a).reg r = s.reg r := rfl
@[simp] theorem State.setI_slot (a : Word) (m : Nat) : (s.setI a).slot m = s.slot m := rfl
@[simp] theorem State.setI_readByte (a : Word) (m : Word) : (s.setI a).readByte m = s.readByte m := rfl

/-! ### `State.jump` -/

@[simp] theorem State.jump_v (a : Word) : (s.jump a).v = s.v := rfl
@[simp] theorem State.jump_i (a : Word) : (s.jump a).i = s.i := rfl
@[simp] theorem State.jump_pc (a : Word) : (s.jump a).pc = a := rfl
@[simp] theorem State.jump_sp (a : Word) : (s.jump a).sp = s.sp := rfl
@[simp] theorem State.jump_stack (a : Word) : (s.jump a).stack = s.stack := rfl
@[simp] theorem State.jump_dt (a : Word) : (s.jump a).dt = s.dt := rfl
@[simp] theorem State.jump_st (a : Word) : (s.jump a).st = s.st := rfl
@[simp] theorem State.jump_mem (a : Word) : (s.jump a).mem = s.mem := rfl
@[simp] theorem State.jump_fb (a : Word) : (s.jump a).fb = s.fb := rfl
@[simp] theorem State.jump_fbDirty (a : Word) : (s.jump a).fbDirty = s.fbDirty := rfl
@[simp] theorem State.jump_err (a : Word) : (s.jump a).err = s.err := rfl
@[simp] theorem State.jump_keys (a : Word) : (s.jump a).keys = s.keys := rfl
@[simp] theorem State.jump_rand (a : Word) : (s.jump a).rand = s.rand := rfl
@[simp] theorem State.jump_steps (a : Word) : (s.jump a).steps = s.steps := rfl
@[simp] theorem State.jump_reg (a : Word) (r : Reg) : (s.jump a).reg r = s.reg r := rfl
@[simp] theorem State.jump_slot (a : Word) (m : Nat) : (s.jump a).slot m = s.slot m := rfl
@[simp] theorem State.jump_readByte (a : Word) (m : Word) : (s.jump a).readByte m = s.readByte m := rfl

/-! ### `State.advance` -/

@[simp] theorem State.advance_v : (s.advance).v = s.v := rfl
@[simp] theorem State.advance_i : (s.advance).i = s.i := rfl
@[simp] theorem State.advance_pc : (s.advance).pc = s.pc + 2 := rfl
@[simp] theorem State.advance_sp : (s.advance).sp = s.sp := rfl
@[simp] theorem State.advance_stack : (s.advance).stack = s.stack := rfl
@[simp] theorem State.advance_dt : (s.advance).dt = s.dt := rfl
@[simp] theorem State.advance_st : (s.advance).st = s.st := rfl
@[simp] theorem State.advance_mem : (s.advance).mem = s.mem := rfl
@[simp] theorem State.advance_fb : (s.advance).fb = s.fb := rfl
@[simp] theorem State.advance_fbDirty : (s.advance).fbDirty = s.fbDirty := rfl
@[simp] theorem State.advance_err : (s.advance).err = s.err := rfl
@[simp] theorem State.advance_keys : (s.advance).keys = s.keys := rfl
@[simp] theorem State.advance_rand : (s.advance).rand = s.rand := rfl
@[simp] theorem State.advance_steps : (s.advance).steps = s.steps := rfl
@[simp] theorem State.advance_reg (r : Reg) : (s.advance).reg r = s.reg r := rfl
@[simp] theorem State.advance_slot (m : Nat) : (s.advance).slot m = s.slot m := rfl
@[simp] theorem State.advance_readByte (m : Word) : (s.advance).readByte m = s.readByte m := rfl

/-! ### `State.skipIf` -/

@[simp] theorem State.skipIf_v (c : Bool) : (s.skipIf c).v = s.v := rfl
@[simp] theorem State.skipIf_i (c : Bool) : (s.skipIf c).i = s.i := rfl
@[simp] theorem State.skipIf_pc (c : Bool) : (s.skipIf c).pc = if c then s.pcNext + 2 else s.pcNext := rfl
@[simp] theorem State.skipIf_sp (c : Bool) : (s.skipIf c).sp = s.sp := rfl
@[simp] theorem State.skipIf_stack (c : Bool) : (s.skipIf c).stack = s.stack := rfl
@[simp] theorem State.skipIf_dt (c : Bool) : (s.skipIf c).dt = s.dt := rfl
@[simp] theorem State.skipIf_st (c : Bool) : (s.skipIf c).st = s.st := rfl
@[simp] theorem State.skipIf_mem (c : Bool) : (s.skipIf c).mem = s.mem := rfl
@[simp] theorem State.skipIf_fb (c : Bool) : (s.skipIf c).fb = s.fb := rfl
@[simp] theorem State.skipIf_fbDirty (c : Bool) : (s.skipIf c).fbDirty = s.fbDirty := rfl
@[simp] theorem State.skipIf_err (c : Bool) : (s.skipIf c).err = s.err := rfl
@[simp] theorem State.skipIf_keys (c : Bool) : (s.skipIf c).keys = s.keys := rfl
@[simp] theorem State.skipIf_rand (c : Bool) : (s.skipIf c).rand = s.rand := rfl
@[simp] theorem State.skipIf_steps (c : Bool) : (s.skipIf c).steps = s.steps := rfl
@[simp] theorem State.skipIf_reg (c : Bool) (r : Reg) : (s.skipIf c).reg r = s.reg r := rfl
@[simp] theorem State.skipIf_slot (c : Bool) (m : Nat) : (s.skipIf c).slot m = s.slot m := rfl
@[simp] theorem State.skipIf_readByte (c : Bool) (m : Word) : (s.skipIf c).readByte m = s.readByte m := rfl

/-! ### `State.setSlot` -/

@[simp] theorem State.setSlot_v (k : Nat) (a : Word) : (s.setSlot k a).v = s.v := rfl
@[simp] theorem State.setSlot_i (k : Nat) (a : Word) : (s.setSlot k a).i = s.i := rfl
@[simp] theorem State.setSlot_pc (k : Nat) (a : Word) : (s.setSlot k a).pc = s.pc := rfl
@[simp] theorem State.setSlot_sp (k : Nat) (a : Word) : (s.setSlot k a).sp = s.sp := rfl
@[simp] theorem State.setSlot_stack (k : Nat) (a : Word) : (s.setSlot k a).stack = s.stack.setIfInBounds (k - 1) a := rfl
@[simp] theorem State.setSlot_dt (k : Nat) (a : Word) : (s.setSlot k a).dt = s.dt := rfl
@[simp] theorem State.setSlot_st (k : Nat) (a : Word) : (s.setSlot k a).st = s.st := rfl
@[simp] theorem State.setSlot_mem (k : Nat) (a : Word) : (s.setSlot k a).mem = s.mem := rfl
@[simp] theorem State.setSlot_fb (k : Nat) (a : Word) : (s.setSlot k a).fb = s.fb := rfl
@[simp] theorem State.setSlot_fbDirty (k : Nat) (a : Word) : (s.setSlot k a).fbDirty = s.fbDirty := rfl
@[simp] theorem State.setSlot_err (k : Nat) (a : Word) : (s.setSlot k a).err = s.err := rfl
@[simp] theorem State.setSlot_keys (k : Nat) (a : Word) : (s.setSlot k a).keys = s.keys := rfl
@[simp] theorem State.setSlot_rand (k : Nat) (a : Word) : (s.setSlot k a).rand = s.rand := rfl
@[simp] theorem State.setSlot_steps (k : Nat) (a : Word) : (s.setSlot k a).steps = s.steps := rfl
@[simp] theorem State.setSlot_reg (k : Nat) (a : Word) (r : Reg) : (s.setSlot k a).reg r = s.reg r := rfl
@[simp] theorem State.setSlot_readByte (k : Nat) (a : Word) (m : Word) : (s.setSlot k a).readByte m = s.readByte m := rfl

/-! ### `State.writeByte` -/

@[simp] theorem State.writeByte_v (a : Word) (b : Byte) : (s.writeByte a b).v = s.v := rfl
@[simp] theorem State.writeByte_i (a : Word) (b : Byte) : (s.writeByte a b).i = s.i := rfl
@[simp] theorem State.writeByte_pc (a : Word) (b : Byte) : (s.writeByte a b).pc = s.pc := rfl
@[simp] theorem State.writeByte_sp (a : Word) (b : Byte) : (s.writeByte a b).sp = s.sp := rfl
@[simp] theorem State.writeByte_stack (a : Word) (b : Byte) : (s.writeByte a b).stack = s.stack := rfl
@[simp] theorem State.writeByte_dt (a : Word) (b : Byte) : (s.writeByte a b).dt = s.dt := rfl
@[simp] theorem State.writeByte_st (a : Word) (b : Byte) : (s.writeByte a b).st = s.st := rfl
@[simp] theorem State.writeByte_mem (a : Word) (b : Byte) : (s.writeByte a b).mem = s.mem.write (port a) b := rfl
@[simp] theorem State.writeByte_fb (a : Word) (b : Byte) : (s.writeByte a b).fb = s.fb := rfl
@[simp] theorem State.writeByte_fbDirty (a : Word) (b : Byte) : (s.writeByte a b).fbDirty = s.fbDirty := rfl
@[simp] theorem State.writeByte_err (a : Word) (b : Byte) : (s.writeByte a b).err = s.err := rfl
@[simp] theorem State.writeByte_keys (a : Word) (b : Byte) : (s.writeByte a b).keys = s.keys := rfl
@[simp] theorem State.writeByte_rand (a : Word) (b : Byte) : (s.writeByte a b).rand = s.rand := rfl
@[simp] theorem State.writeByte_steps (a : Word) (b : Byte) : (s.writeByte a b).steps = s.steps := rfl
@[simp] theorem State.writeByte_reg (a : Word) (b : Byte) (r : Reg) : (s.writeByte a b).reg r = s.reg r := rfl
@[simp] theorem State.writeByte_slot (a : Word) (b : Byte) (m : Nat) : (s.writeByte a b).slot m = s.slot m := rfl

/-! ### `State.setFb` -/

@[simp] theorem State.setFb_v (f : FrameBuffer) : (s.setFb f).v = s.v := rfl
@[simp] theorem State.setFb_i (f : FrameBuffer) : (s.setFb f).i = s.i := rfl
@[simp] theorem State.setFb_pc (f : FrameBuffer) : (s.setFb f).pc = s.pc := rfl
@[simp] theorem State.setFb_sp (f : FrameBuffer) : (s.setFb f).sp = s.sp := rfl
@[simp] theorem State.setFb_stack (f : FrameBuffer) : (s.setFb f).stack = s.stack := rfl
@[simp] theorem State.setFb_dt (f : FrameBuffer) : (s.setFb f).dt = s.dt := rfl
@[simp] theorem State.setFb_st (f : FrameBuffer) : (s.setFb f).st = s.st := rfl
@[simp] theorem State.setFb_mem (f : FrameBuffer) : (s.setFb f).mem = s.mem := rfl
@[simp] theorem State.setFb_fb (f : FrameBuffer) : (s.setFb f).fb = f := rfl
@[simp] theorem State.setFb_fbDirty (f : FrameBuffer) : (s.setFb f).fbDirty = true := rfl
@[simp] theorem State.setFb_err (f : FrameBuffer) : (s.setFb f).err = s.err := rfl
@[simp] theorem State.setFb_keys (f : FrameBuffer) : (s.setFb f).keys = s.keys := rfl
@[simp] theorem State.setFb_rand (f : FrameBuffer) : (s.setFb f).rand = s.rand := rfl
@[simp] theorem State.setFb_steps (f : FrameBuffer) : (s.setFb f).steps = s.steps := rfl
@[simp] theorem State.setFb_reg (f : FrameBuffer) (r : Reg) : (s.setFb f).reg r = s.reg r := rfl
@[simp] theorem State.setFb_slot (f : FrameBuffer) (m : Nat) : (s.setFb f).slot m = s.slot m := rfl
@[simp] theorem State.setFb_readByte (f : FrameBuffer) (m : Word) : (s.setFb f).readByte m = s.readByte m := rfl

/-! ### `State.takeFault` -/

@[simp] theorem State.takeFault_v (c : FaultCode) : (s.takeFault c).v = s.v := rfl
@[simp] theorem State.takeFault_i (c : FaultCode) : (s.takeFault c).i = s.i := rfl
@[simp] theorem State.takeFault_pc (c : FaultCode) : (s.takeFault c).pc = s.pc := rfl
@[simp] theorem State.takeFault_sp (c : FaultCode) : (s.takeFault c).sp = s.sp := rfl
@[simp] theorem State.takeFault_stack (c : FaultCode) : (s.takeFault c).stack = s.stack := rfl
@[simp] theorem State.takeFault_dt (c : FaultCode) : (s.takeFault c).dt = s.dt := rfl
@[simp] theorem State.takeFault_st (c : FaultCode) : (s.takeFault c).st = s.st := rfl
@[simp] theorem State.takeFault_mem (c : FaultCode) : (s.takeFault c).mem = s.mem := rfl
@[simp] theorem State.takeFault_fb (c : FaultCode) : (s.takeFault c).fb = s.fb := rfl
@[simp] theorem State.takeFault_fbDirty (c : FaultCode) : (s.takeFault c).fbDirty = s.fbDirty := rfl
@[simp] theorem State.takeFault_err (c : FaultCode) : (s.takeFault c).err = c := rfl
@[simp] theorem State.takeFault_keys (c : FaultCode) : (s.takeFault c).keys = s.keys := rfl
@[simp] theorem State.takeFault_rand (c : FaultCode) : (s.takeFault c).rand = s.rand := rfl
@[simp] theorem State.takeFault_steps (c : FaultCode) : (s.takeFault c).steps = s.steps := rfl
@[simp] theorem State.takeFault_reg (c : FaultCode) (r : Reg) : (s.takeFault c).reg r = s.reg r := rfl
@[simp] theorem State.takeFault_slot (c : FaultCode) (m : Nat) : (s.takeFault c).slot m = s.slot m := rfl
@[simp] theorem State.takeFault_readByte (c : FaultCode) (m : Word) : (s.takeFault c).readByte m = s.readByte m := rfl

/-! ### `State.tick` -/

@[simp] theorem State.tick_v : (s.tick).v = s.v := rfl
@[simp] theorem State.tick_i : (s.tick).i = s.i := rfl
@[simp] theorem State.tick_pc : (s.tick).pc = s.pc := rfl
@[simp] theorem State.tick_sp : (s.tick).sp = s.sp := rfl
@[simp] theorem State.tick_stack : (s.tick).stack = s.stack := rfl
@[simp] theorem State.tick_dt : (s.tick).dt = countDown s.dt := rfl
@[simp] theorem State.tick_st : (s.tick).st = countDown s.st := rfl
@[simp] theorem State.tick_mem : (s.tick).mem = s.mem := rfl
@[simp] theorem State.tick_fb : (s.tick).fb = s.fb := rfl
@[simp] theorem State.tick_fbDirty : (s.tick).fbDirty = s.fbDirty := rfl
@[simp] theorem State.tick_err : (s.tick).err = s.err := rfl
@[simp] theorem State.tick_keys : (s.tick).keys = s.keys := rfl
@[simp] theorem State.tick_rand : (s.tick).rand = s.rand := rfl
@[simp] theorem State.tick_steps : (s.tick).steps = s.steps := rfl
@[simp] theorem State.tick_reg (r : Reg) : (s.tick).reg r = s.reg r := rfl
@[simp] theorem State.tick_slot (m : Nat) : (s.tick).slot m = s.slot m := rfl
@[simp] theorem State.tick_readByte (m : Word) : (s.tick).readByte m = s.readByte m := rfl

/-! ### `State.ticks` -/

@[simp] theorem State.ticks_v (n : Nat) : (s.ticks n).v = s.v := rfl
@[simp] theorem State.ticks_i (n : Nat) : (s.ticks n).i = s.i := rfl
@[simp] theorem State.ticks_pc (n : Nat) : (s.ticks n).pc = s.pc := rfl
@[simp] theorem State.ticks_sp (n : Nat) : (s.ticks n).sp = s.sp := rfl
@[simp] theorem State.ticks_stack (n : Nat) : (s.ticks n).stack = s.stack := rfl
@[simp] theorem State.ticks_dt (n : Nat) : (s.ticks n).dt = countDownBy n s.dt := rfl
@[simp] theorem State.ticks_st (n : Nat) : (s.ticks n).st = countDownBy n s.st := rfl
@[simp] theorem State.ticks_mem (n : Nat) : (s.ticks n).mem = s.mem := rfl
@[simp] theorem State.ticks_fb (n : Nat) : (s.ticks n).fb = s.fb := rfl
@[simp] theorem State.ticks_fbDirty (n : Nat) : (s.ticks n).fbDirty = s.fbDirty := rfl
@[simp] theorem State.ticks_err (n : Nat) : (s.ticks n).err = s.err := rfl
@[simp] theorem State.ticks_keys (n : Nat) : (s.ticks n).keys = s.keys := rfl
@[simp] theorem State.ticks_rand (n : Nat) : (s.ticks n).rand = s.rand := rfl
@[simp] theorem State.ticks_steps (n : Nat) : (s.ticks n).steps = s.steps := rfl
@[simp] theorem State.ticks_reg (n : Nat) (r : Reg) : (s.ticks n).reg r = s.reg r := rfl
@[simp] theorem State.ticks_slot (n : Nat) (m : Nat) : (s.ticks n).slot m = s.slot m := rfl
@[simp] theorem State.ticks_readByte (n : Nat) (m : Word) : (s.ticks n).readByte m = s.readByte m := rfl

/-! ### `State.clearDirty` -/

@[simp] theorem State.clearDirty_v : (s.clearDirty).v = s.v := rfl
@[simp] theorem State.clearDirty_i : (s.clearDirty).i = s.i := rfl
@[simp] theorem State.clearDirty_pc : (s.clearDirty).pc = s.pc := rfl
@[simp] theorem State.clearDirty_sp : (s.clearDirty).sp = s.sp := rfl
@[simp] theorem State.clearDirty_stack : (s.clearDirty).stack = s.stack := rfl
@[simp] theorem State.clearDirty_dt : (s.clearDirty).dt = s.dt := rfl
@[simp] theorem State.clearDirty_st : (s.clearDirty).st = s.st := rfl
@[simp] theorem State.clearDirty_mem : (s.clearDirty).mem = s.mem := rfl
@[simp] theorem State.clearDirty_fb : (s.clearDirty).fb = s.fb := rfl
@[simp] theorem State.clearDirty_fbDirty : (s.clearDirty).fbDirty = false := rfl
@[simp] theorem State.clearDirty_err : (s.clearDirty).err = s.err := rfl
@[simp] theorem State.clearDirty_keys : (s.clearDirty).keys = s.keys := rfl
@[simp] theorem State.clearDirty_rand : (s.clearDirty).rand = s.rand := rfl
@[simp] theorem State.clearDirty_steps : (s.clearDirty).steps = s.steps := rfl
@[simp] theorem State.clearDirty_reg (r : Reg) : (s.clearDirty).reg r = s.reg r := rfl
@[simp] theorem State.clearDirty_slot (m : Nat) : (s.clearDirty).slot m = s.slot m := rfl
@[simp] theorem State.clearDirty_readByte (m : Word) : (s.clearDirty).readByte m = s.readByte m := rfl

/-! ### `State.clearDirtyIf` -/

@[simp] theorem State.clearDirtyIf_v (c : Bool) : (s.clearDirtyIf c).v = s.v := rfl
@[simp] theorem State.clearDirtyIf_i (c : Bool) : (s.clearDirtyIf c).i = s.i := rfl
@[simp] theorem State.clearDirtyIf_pc (c : Bool) : (s.clearDirtyIf c).pc = s.pc := rfl
@[simp] theorem State.clearDirtyIf_sp (c : Bool) : (s.clearDirtyIf c).sp = s.sp := rfl
@[simp] theorem State.clearDirtyIf_stack (c : Bool) : (s.clearDirtyIf c).stack = s.stack := rfl
@[simp] theorem State.clearDirtyIf_dt (c : Bool) : (s.clearDirtyIf c).dt = s.dt := rfl
@[simp] theorem State.clearDirtyIf_st (c : Bool) : (s.clearDirtyIf c).st = s.st := rfl
@[simp] theorem State.clearDirtyIf_mem (c : Bool) : (s.clearDirtyIf c).mem = s.mem := rfl
@[simp] theorem State.clearDirtyIf_fb (c : Bool) : (s.clearDirtyIf c).fb = s.fb := rfl
@[simp] theorem State.clearDirtyIf_fbDirty (c : Bool) : (s.clearDirtyIf c).fbDirty = (s.fbDirty && !c) := rfl
@[simp] theorem State.clearDirtyIf_err (c : Bool) : (s.clearDirtyIf c).err = s.err := rfl
@[simp] theorem State.clearDirtyIf_keys (c : Bool) : (s.clearDirtyIf c).keys = s.keys := rfl
@[simp] theorem State.clearDirtyIf_rand (c : Bool) : (s.clearDirtyIf c).rand = s.rand := rfl
@[simp] theorem State.clearDirtyIf_steps (c : Bool) : (s.clearDirtyIf c).steps = s.steps := rfl
@[simp] theorem State.clearDirtyIf_reg (c : Bool) (r : Reg) : (s.clearDirtyIf c).reg r = s.reg r := rfl
@[simp] theorem State.clearDirtyIf_slot (c : Bool) (m : Nat) : (s.clearDirtyIf c).slot m = s.slot m := rfl
@[simp] theorem State.clearDirtyIf_readByte (c : Bool) (m : Word) : (s.clearDirtyIf c).readByte m = s.readByte m := rfl

/-! ### `State.betweenSteps` -/

@[simp] theorem State.betweenSteps_v : (s.betweenSteps).v = s.v := rfl
@[simp] theorem State.betweenSteps_i : (s.betweenSteps).i = s.i := rfl
@[simp] theorem State.betweenSteps_pc : (s.betweenSteps).pc = s.pc := rfl
@[simp] theorem State.betweenSteps_sp : (s.betweenSteps).sp = s.sp := rfl
@[simp] theorem State.betweenSteps_stack : (s.betweenSteps).stack = s.stack := rfl
@[simp] theorem State.betweenSteps_dt : (s.betweenSteps).dt = countDownBy (Config.ticksAfter s.steps) s.dt := rfl
@[simp] theorem State.betweenSteps_st : (s.betweenSteps).st = countDownBy (Config.ticksAfter s.steps) s.st := rfl
@[simp] theorem State.betweenSteps_mem : (s.betweenSteps).mem = s.mem := rfl
@[simp] theorem State.betweenSteps_fb : (s.betweenSteps).fb = s.fb := rfl
@[simp] theorem State.betweenSteps_fbDirty : (s.betweenSteps).fbDirty = (s.fbDirty && !Config.clearsAfter s.steps) := rfl
@[simp] theorem State.betweenSteps_err : (s.betweenSteps).err = s.err := rfl
@[simp] theorem State.betweenSteps_keys : (s.betweenSteps).keys = Config.keysAt (s.steps + 1) := rfl
@[simp] theorem State.betweenSteps_rand : (s.betweenSteps).rand = Config.randAt (s.steps + 1) := rfl
@[simp] theorem State.betweenSteps_steps : (s.betweenSteps).steps = s.steps + 1 := rfl
@[simp] theorem State.betweenSteps_reg (r : Reg) : (s.betweenSteps).reg r = s.reg r := rfl
@[simp] theorem State.betweenSteps_slot (m : Nat) : (s.betweenSteps).slot m = s.slot m := rfl
@[simp] theorem State.betweenSteps_readByte (m : Word) : (s.betweenSteps).readByte m = s.readByte m := rfl

/-! ### `State.placeInstruction` -/

@[simp] theorem State.placeInstruction_v (p : Byte × Byte) : (s.placeInstruction p).v = s.v := rfl
@[simp] theorem State.placeInstruction_i (p : Byte × Byte) : (s.placeInstruction p).i = s.i := rfl
@[simp] theorem State.placeInstruction_pc (p : Byte × Byte) : (s.placeInstruction p).pc = s.pc := rfl
@[simp] theorem State.placeInstruction_sp (p : Byte × Byte) : (s.placeInstruction p).sp = s.sp := rfl
@[simp] theorem State.placeInstruction_stack (p : Byte × Byte) : (s.placeInstruction p).stack = s.stack := rfl
@[simp] theorem State.placeInstruction_dt (p : Byte × Byte) : (s.placeInstruction p).dt = s.dt := rfl
@[simp] theorem State.placeInstruction_st (p : Byte × Byte) : (s.placeInstruction p).st = s.st := rfl
@[simp] theorem State.placeInstruction_mem (p : Byte × Byte) : (s.placeInstruction p).mem = (s.mem.write (port s.pc) p.1).write (port (s.pc + 1)) p.2 := rfl
@[simp] theorem State.placeInstruction_fb (p : Byte × Byte) : (s.placeInstruction p).fb = s.fb := rfl
@[simp] theorem State.placeInstruction_fbDirty (p : Byte × Byte) : (s.placeInstruction p).fbDirty = s.fbDirty := rfl
@[simp] theorem State.placeInstruction_err (p : Byte × Byte) : (s.placeInstruction p).err = FaultCode.none := rfl
@[simp] theorem State.placeInstruction_keys (p : Byte × Byte) : (s.placeInstruction p).keys = s.keys := rfl
@[simp] theorem State.placeInstruction_rand (p : Byte × Byte) : (s.placeInstruction p).rand = s.rand := rfl
@[simp] theorem State.placeInstruction_steps (p : Byte × Byte) : (s.placeInstruction p).steps = s.steps := rfl
@[simp] theorem State.placeInstruction_reg (p : Byte × Byte) (r : Reg) : (s.placeInstruction p).reg r = s.reg r := rfl
@[simp] theorem State.placeInstruction_slot (p : Byte × Byte) (m : Nat) : (s.placeInstruction p).slot m = s.slot m := rfl

/-! ### `State.writeBytes` -/

variable (a : Word) (bs : List Byte)

@[simp] theorem State.writeBytes_v : (s.writeBytes a bs).v = s.v := by
  induction bs generalizing s a with
  | nil => rfl
  | cons b bs ih => exact ih ..
@[simp] theorem State.writeBytes_i : (s.writeBytes a bs).i = s.i := by
  induction bs generalizing s a with
  | nil => rfl
  | cons b bs ih => exact ih ..
@[simp] theorem State.writeBytes_pc : (s.writeBytes a bs).pc = s.pc := by
  induction bs generalizing s a with
  | nil => rfl
  | cons b bs ih => exact ih ..
@[simp] theorem State.writeBytes_sp : (s.writeBytes a bs).sp = s.sp := by
  induction bs generalizing s a with
  | nil => rfl
  | cons b bs ih => exact ih ..
@[simp] theorem State.writeBytes_stack : (s.writeBytes a bs).stack = s.stack := by
  induction bs generalizing s a with
  | nil => rfl
  | cons b bs ih => exact ih ..
@[simp] theorem State.writeBytes_dt : (s.writeBytes a bs).dt = s.dt := by
  induction bs generalizing s a with
  | nil => rfl
  | cons b bs ih => exact ih ..
@[simp] theorem State.writeBytes_st : (s.writeBytes a bs).st = s.st := by
  induction bs generalizing s a with
  | nil => rfl
  | cons b bs ih => exact ih ..
@[simp] theorem State.writeBytes_fb : (s.writeBytes a bs).fb = s.fb := by
  induction bs generalizing s a with
  | nil => rfl
  | cons b bs ih => exact ih ..
@[simp] theorem State.writeBytes_fbDirty : (s.writeBytes a bs).fbDirty = s.fbDirty := by
  induction bs generalizing s a with
  | nil => rfl
  | cons b bs ih => exact ih ..
@[simp] theorem State.writeBytes_err : (s.writeBytes a bs).err = s.err := by
  induction bs generalizing s a with
  | nil => rfl
  | cons b bs ih => exact ih ..
@[simp] theorem State.writeBytes_keys : (s.writeBytes a bs).keys = s.keys := by
  induction bs generalizing s a with
  | nil => rfl
  | cons b bs ih => exact ih ..
@[simp] theorem State.writeBytes_rand : (s.writeBytes a bs).rand = s.rand := by
  induction bs generalizing s a with
  | nil => rfl
  | cons b bs ih => exact ih ..
@[simp] theorem State.writeBytes_steps : (s.writeBytes a bs).steps = s.steps := by
  induction bs generalizing s a with
  | nil => rfl
  | cons b bs ih => exact ih ..
@[simp] theorem State.writeBytes_reg (r : Reg) : (s.writeBytes a bs).reg r = s.reg r := by simp [State.reg]
@[simp] theorem State.writeBytes_slot (n : Nat) : (s.writeBytes a bs).slot n = s.slot n := by simp [State.slot]

/-! ### Reading a register or a slot after writing one -/

@[simp] theorem State.setReg_reg_self (x : Reg) (b : Byte) : (s.setReg x b).reg x = b := by
  simp [State.reg, State.setReg]

theorem State.setReg_reg_of_ne (x r : Reg) (b : Byte) (h : r ≠ x) : (s.setReg x b).reg r = s.reg r := by
  have : x.val ≠ r.val := fun e => h (Fin.ext e.symm)
  simp [State.reg, State.setReg, Vector.getElem_set_ne, this]

theorem State.setReg_reg (x r : Reg) (b : Byte) : (s.setReg x b).reg r = if r = x then b else s.reg r := by
  split
  · next h => subst h; simp
  · next h => exact s.setReg_reg_of_ne x r b h

/-- After a result and a flag are written, VF holds the flag, whatever the destination is. -/
@[simp] theorem State.setRegFlag_reg_vf (x : Reg) (b f : Byte) : (s.setRegFlag x b f).reg VF = f := by
  simp [State.setRegFlag]

theorem State.setRegFlag_reg (x r : Reg) (b f : Byte) :
    (s.setRegFlag x b f).reg r = if r = VF then f else if r = x then b else s.reg r := by
  simp [State.setRegFlag, State.setReg_reg]

@[simp] theorem State.setRegsUpTo_reg (x r : Reg) (f : Reg → Byte) :
    (s.setRegsUpTo x f).reg r = if r ≤ x then f r else s.reg r := by
  simp [State.reg, State.setRegsUpTo]

theorem State.setSlot_slot (k n : Nat) (a : Word) (hk : 1 ≤ k) (hk' : k ≤ 16) :
    (s.setSlot k a).slot n = if n = k then some a else s.slot n := by
  simp only [State.slot, State.setSlot]
  by_cases h0 : n = 0
  · simp [h0]; omega
  · by_cases h : n = k
    · subst h
      simp only [h0, if_false, if_true]
      exact Vector.getElem?_setIfInBounds_self_of_lt (by omega)
    · have : k - 1 ≠ n - 1 := by omega
      simp [h0, h, this]

/-- The slots that exist are 1 to 16. -/
theorem State.slot_isSome (k : Nat) : (s.slot k).isSome = true ↔ 1 ≤ k ∧ k ≤ 16 := by
  unfold State.slot
  split <;> simp <;> omega

end Sys2Proof.Machine
end

