-- ==== Sys2Proof/Laws/Ops.lean ====
section
/-! SUPPORT. What each shared operation does, said once: memory and its canonical form, stores of several bytes, the timers,
the flags. -/

namespace Sys2Proof.Machine

/-! ### One cell of memory -/

theorem Memory.read_of_not_listed (m : Memory) (a : Nat) (h : ∀ c ∈ m, c.1 ≠ a) : m.read a = Config.resetByte a := by
  induction m with
  | nil => rfl
  | cons c m ih =>
    have hc := h c (by simp)
    simp only [Memory.read, if_neg hc]
    exact ih fun d hd => h d (by simp [hd])

theorem Memory.read_erase_self (m : Memory) (a : Nat) : (m.erase a).read a = Config.resetByte a :=
  Memory.read_of_not_listed _ a fun c hc => by simpa using (List.mem_filter.1 hc).2

theorem Memory.read_erase_of_ne (m : Memory) (a k : Nat) (h : k ≠ a) : (m.erase a).read k = m.read k := by
  induction m with
  | nil => rfl
  | cons c m ih =>
    by_cases hc : c.1 = a
    · have e : Memory.erase (c :: m) a = Memory.erase m a := by simp [Memory.erase, hc]
      rw [e, ih]
      simp [Memory.read, hc, Ne.symm h]
    · have e : Memory.erase (c :: m) a = c :: Memory.erase m a := by simp [Memory.erase, hc]
      rw [e]
      simp only [Memory.read, ih]

theorem Memory.read_insertCell_self (m : Memory) (a : Nat) (b : Byte) (h : ∀ c ∈ m, c.1 ≠ a) :
    (Memory.insertCell a b m).read a = b := by
  induction m with
  | nil => simp [Memory.insertCell, Memory.read]
  | cons c m ih =>
    unfold Memory.insertCell
    split
    · simp [Memory.read]
    · simp only [Memory.read, if_neg (h c (by simp))]
      exact ih fun d hd => h d (by simp [hd])

theorem Memory.read_insertCell_of_ne (m : Memory) (a k : Nat) (b : Byte) (h : k ≠ a) :
    (Memory.insertCell a b m).read k = m.read k := by
  induction m with
  | nil => simp [Memory.insertCell, Memory.read, Ne.symm h]
  | cons c m ih =>
    unfold Memory.insertCell
    split
    · simp [Memory.read, Ne.symm h]
    · simp only [Memory.read, ih]

/-- A read after a write, whatever the list: the byte written at the address written, the old byte elsewhere (R24). -/
theorem Memory.read_write (m : Memory) (a k : Nat) (b : Byte) :
    (m.write a b).read k = if k = a then b else m.read k := by
  unfold Memory.write
  split
  · next hb =>
    split
    · next hk => subst hk; rw [Memory.read_erase_self, hb]
    · next hk => exact Memory.read_erase_of_ne m a k hk
  · split
    · next hk =>
      subst hk
      exact Memory.read_insertCell_self _ _ _ fun c hc => by simpa using (List.mem_filter.1 hc).2
    · next hk => rw [Memory.read_insertCell_of_ne _ _ _ _ hk, Memory.read_erase_of_ne _ _ _ hk]

@[simp] theorem Memory.read_write_self (m : Memory) (a : Nat) (b : Byte) : (m.write a b).read a = b := by
  simp [Memory.read_write]

theorem Memory.read_write_of_ne (m : Memory) (a k : Nat) (b : Byte) (h : k ≠ a) :
    (m.write a b).read k = m.read k := by
  simp [Memory.read_write, h]

/-! ### The canonical form -/

theorem Memory.risingFrom_mono (m : Memory) (low low' : Nat) (h : low' ≤ low) (hm : Memory.risingFrom low m = true) :
    Memory.risingFrom low' m = true := by
  cases m with
  | nil => rfl
  | cons c m =>
    simp only [Memory.risingFrom, Bool.and_eq_true, decide_eq_true_eq] at hm ⊢
    exact ⟨by omega, hm.2⟩

theorem Memory.risingFrom_erase (m : Memory) (a low : Nat) (hm : Memory.risingFrom low m = true) :
    Memory.risingFrom low (m.erase a) = true := by
  induction m generalizing low with
  | nil => rfl
  | cons c m ih =>
    simp only [Memory.risingFrom, Bool.and_eq_true, decide_eq_true_eq] at hm
    by_cases hc : c.1 = a
    · have e : Memory.erase (c :: m) a = Memory.erase m a := by simp [Memory.erase, hc]
      rw [e]
      exact Memory.risingFrom_mono _ _ _ (by omega) (ih _ hm.2)
    · have e : Memory.erase (c :: m) a = c :: Memory.erase m a := by simp [Memory.erase, hc]
      rw [e]
      simp only [Memory.risingFrom, Bool.and_eq_true, decide_eq_true_eq]
      exact ⟨hm.1, ih _ hm.2⟩

theorem Memory.risingFrom_insertCell (m : Memory) (a low : Nat) (b : Byte) (hl : low ≤ a)
    (hm : Memory.risingFrom low m = true) (ha : ∀ c ∈ m, c.1 ≠ a) :
    Memory.risingFrom low (Memory.insertCell a b m) = true := by
  induction m generalizing low with
  | nil => simp [Memory.insertCell, Memory.risingFrom, hl]
  | cons c m ih =>
    have hca := ha c (by simp)
    simp only [Memory.risingFrom, Bool.and_eq_true, decide_eq_true_eq] at hm
    unfold Memory.insertCell
    split
    · next h =>
      simp only [Memory.risingFrom, Bool.and_eq_true, decide_eq_true_eq]
      exact ⟨hl, h, hm.2⟩
    · next h =>
      simp only [Memory.risingFrom, Bool.and_eq_true, decide_eq_true_eq]
      exact ⟨hm.1, ih _ (by omega) hm.2 fun d hd => ha d (by simp [hd])⟩

theorem Memory.mem_insertCell (m : Memory) (a : Nat) (b : Byte) (c : Host.Cell) :
    c ∈ Memory.insertCell a b m → c = (a, b) ∨ c ∈ m := by
  induction m with
  | nil => simp [Memory.insertCell]
  | cons d m ih =>
    unfold Memory.insertCell
    split
    · simp
    · simp only [List.mem_cons]
      rintro (h | h)
      · exact .inr (.inl h)
      · exact (ih h).imp id .inr

/-- A write at an address of `MEM` keeps the canonical form. -/
theorem Memory.wf_write (m : Memory) (a : Nat) (b : Byte) (ha : a < Config.memSize) (hm : m.wf = true) :
    (m.write a b).wf = true := by
  simp only [Memory.wf, Bool.and_eq_true, List.all_eq_true] at hm ⊢
  have herase : ∀ c ∈ m.erase a, c ∈ m ∧ c.1 ≠ a := fun c hc => by
    have := List.mem_filter.1 hc
    exact ⟨this.1, by simpa using this.2⟩
  have hrise := Memory.risingFrom_erase m a 0 hm.1
  unfold Memory.write
  split
  · exact ⟨hrise, fun c hc => hm.2 c (herase c hc).1⟩
  · next hb =>
    refine ⟨Memory.risingFrom_insertCell _ _ _ _ (Nat.zero_le _) hrise fun c hc => (herase c hc).2, fun c hc => ?_⟩
    rcases Memory.mem_insertCell _ _ _ _ hc with h | h
    · subst h
      simp [ha, hb]
    · exact hm.2 c (herase c h).1

theorem Memory.wf_load (bytes : List Byte) (m : Memory) (a : Nat) (ha : a + bytes.length ≤ Config.memSize)
    (hm : m.wf = true) : (m.load a bytes).wf = true := by
  induction bytes generalizing m a with
  | nil => exact hm
  | cons b bs ih =>
    simp only [List.length_cons] at ha
    exact ih _ _ (by omega) (Memory.wf_write _ _ _ (by omega) hm)

theorem port_lt (a : Word) : port a < Config.memSize := Nat.mod_lt _ (by decide)

theorem State.writeByte_wf (s : State) (a : Word) (b : Byte) (hs : s.mem.wf = true) :
    (s.writeByte a b).mem.wf = true :=
  Memory.wf_write _ _ _ (port_lt a) hs

theorem State.writeBytes_wf (s : State) (a : Word) (bs : List Byte) (hs : s.mem.wf = true) :
    (s.writeBytes a bs).mem.wf = true := by
  induction bs generalizing s a with
  | nil => exact hs
  | cons b bs ih => exact ih _ _ (s.writeByte_wf a b hs)

theorem State.loadProgram_wf (s : State) (bytes : List Byte) (hs : s.mem.wf = true) :
    (s.loadProgram bytes).mem.wf = true := by
  unfold State.loadProgram
  split
  · exact hs
  · split
    · exact hs
    · next h =>
      have : Config.pcStart < Config.memSize := by decide
      exact Memory.wf_load _ _ _ (by omega) hs

theorem State.placeInstruction_wf (s : State) (p : Byte × Byte) (hs : s.mem.wf = true) :
    (s.placeInstruction p).mem.wf = true :=
  Memory.wf_write _ _ _ (port_lt _) (Memory.wf_write _ _ _ (port_lt _) hs)

/-! ### Accesses of several bytes -/

/-- The port address of the `k`-th byte from `a` on: `(a + k) mod 4096` (R20). -/
theorem port_add (a : Word) (k : Nat) : port (a + BitVec.ofNat 16 k) = (a.toNat + k) % 4096 := by
  simp only [port, Config.memSize, BitVec.toNat_add, BitVec.toNat_ofNat]
  omega

theorem port_eq (a : Word) : port a = a.toNat % 4096 := rfl

theorem add_one_add_ofNat (a : Word) (k : Nat) : a + 1 + BitVec.ofNat 16 k = a + BitVec.ofNat 16 (k + 1) := by
  rw [BitVec.add_assoc, show (1 : Word) = BitVec.ofNat 16 1 from rfl, ← BitVec.ofNat_add, Nat.add_comm]

/-- The address after `a`, `k` further. -/
theorem toNat_add_one_add (a : Word) (k : Nat) : ((a + 1).toNat + k) % 4096 = (a.toNat + (k + 1)) % 4096 := by
  rw [← port_add, add_one_add_ofNat, port_add]

theorem State.readBytes_length (s : State) (a : Word) (n : Nat) : (s.readBytes a n).length = n := by
  induction n generalizing a with
  | zero => rfl
  | succ n ih => simp [State.readBytes, ih]

/-- The `k`-th byte read from `a` on is that of address `(a + k) mod 4096` (R20, R23). -/
theorem State.readBytes_getElem? (s : State) (a : Word) (n k : Nat) (hk : k < n) :
    (s.readBytes a n)[k]? = some (s.mem.read ((a.toNat + k) % 4096)) := by
  induction n generalizing a k with
  | zero => omega
  | succ n ih =>
    cases k with
    | zero => simp [State.readBytes, State.readByte, port_eq]
    | succ k =>
      simp only [State.readBytes, List.getElem?_cons_succ]
      rw [ih _ _ (by omega), toNat_add_one_add]

/-- A byte outside the stored ones reads as before. -/
theorem State.writeBytes_read_outside (s : State) (a : Word) (bs : List Byte) (p : Nat)
    (hp : ∀ k < bs.length, p ≠ (a.toNat + k) % 4096) : (s.writeBytes a bs).mem.read p = s.mem.read p := by
  induction bs generalizing s a with
  | nil => rfl
  | cons b bs ih =>
    have h0 : p ≠ port a := by simpa [port_eq] using hp 0 (by simp)
    rw [State.writeBytes, ih, State.writeByte_mem, Memory.read_write_of_ne _ _ _ _ h0]
    intro k hk
    have := hp (k + 1) (by simpa using hk)
    rwa [toNat_add_one_add]

/-- The `k`-th stored byte is found at `(a + k) mod 4096`; 4096 bytes in a row are all different addresses (R23). -/
theorem State.writeBytes_read_inside (s : State) (a : Word) (bs : List Byte) (hl : bs.length ≤ 4096) (k : Nat)
    (hk : k < bs.length) : (s.writeBytes a bs).mem.read ((a.toNat + k) % 4096) = bs[k] := by
  induction bs generalizing s a k with
  | nil => simp at hk
  | cons b bs ih =>
    simp only [List.length_cons] at hl hk
    cases k with
    | zero =>
      rw [State.writeBytes, State.writeBytes_read_outside, State.writeByte_mem]
      · simp [port_eq]
      · intro j hj
        rw [toNat_add_one_add]
        omega
    | succ k =>
      rw [State.writeBytes, ← toNat_add_one_add, ih _ _ (by omega) k (by omega)]
      simp

theorem Memory.load_read_outside (bytes : List Byte) (m : Memory) (a p : Nat) (hp : p < a ∨ a + bytes.length ≤ p) :
    (m.load a bytes).read p = m.read p := by
  induction bytes generalizing m a with
  | nil => rfl
  | cons b bs ih =>
    simp only [List.length_cons] at hp
    rw [Memory.load, ih _ _ (by omega), Memory.read_write_of_ne _ _ _ _ (by omega)]

theorem Memory.load_read_inside (bytes : List Byte) (m : Memory) (a k : Nat) (hk : k < bytes.length) :
    (m.load a bytes).read (a + k) = bytes[k] := by
  induction bytes generalizing m a k with
  | nil => simp at hk
  | cons b bs ih =>
    cases k with
    | zero => simp [Memory.load, Memory.load_read_outside]
    | succ k =>
      simp only [List.length_cons] at hk
      have := ih (m.write a b) (a + 1) k (by omega)
      rw [show a + (k + 1) = a + 1 + k by omega]
      simpa [Memory.load] using this

/-! ### Timers -/

theorem countDown_toNat (t : Byte) : (countDown t).toNat = t.toNat - 1 := by
  unfold countDown
  split
  · next h => simp [h]
  · next h =>
    have : t.toNat ≠ 0 := fun e => h (BitVec.eq_of_toNat_eq (by simpa using e))
    have := t.isLt
    rw [BitVec.toNat_sub, show (1 : Byte).toNat = 1 from rfl]
    omega

theorem countDownBy_toNat (n : Nat) (t : Byte) : (countDownBy n t).toNat = t.toNat - n := by
  unfold countDownBy
  split
  · next h => simp [h]
  · have := t.isLt
    simp only [BitVec.toNat_ofNat]
    omega

theorem countDownBy_zero (t : Byte) : countDownBy 0 t = t :=
  BitVec.eq_of_toNat_eq (by simp [countDownBy_toNat])

theorem countDownBy_succ (n : Nat) (t : Byte) : countDownBy (n + 1) t = countDownBy n (countDown t) :=
  BitVec.eq_of_toNat_eq (by simp only [countDownBy_toNat, countDown_toNat]; omega)

/-- `n` Ticks at once are `n` Ticks one after another. -/
theorem State.ticks_eq_iterate (s : State) (n : Nat) : s.ticks n = State.tick^[n] s := by
  induction n generalizing s with
  | zero => simp [State.ticks, countDownBy_zero]
  | succ n ih =>
    rw [Function.iterate_succ_apply, ← ih]
    simp [State.ticks, State.tick, countDownBy_succ]

/-! ### Flags, and the least key -/

/-- A flag is 0 or 1 (R7). -/
theorem flag_toNat (c : Bool) : (flag c).toNat = if c then 1 else 0 := by cases c <;> rfl

/-- The least key of a mask: it is set, and none below it is; `low + n` if there is none among the `n`. -/
theorem leastKeyFrom_spec (keys : Word) (low n : Nat) :
    low ≤ leastKeyFrom keys low n ∧ leastKeyFrom keys low n ≤ low + n ∧
      (leastKeyFrom keys low n < low + n → keys.getLsbD (leastKeyFrom keys low n) = true) ∧
      ∀ j, low ≤ j → j < leastKeyFrom keys low n → keys.getLsbD j = false := by
  induction n generalizing low with
  | zero => exact ⟨le_rfl, le_rfl, fun h => absurd h (by simp [leastKeyFrom]), fun j h1 h2 => by
      simp only [leastKeyFrom] at h2; omega⟩
  | succ n ih =>
    unfold leastKeyFrom
    split
    · next h => exact ⟨le_rfl, by omega, fun _ => h, fun j h1 h2 => by omega⟩
    · next h =>
      obtain ⟨h1, h2, h3, h4⟩ := ih (low + 1)
      refine ⟨by omega, by omega, fun hlt => h3 (by omega), fun j hj hj' => ?_⟩
      rcases Nat.lt_or_ge low j with hlow | hlow
      · exact h4 j hlow hj'
      · have : j = low := by omega
        subst this
        simpa using h

end Sys2Proof.Machine
end

