-- ==== Sys2Proof/Laws/Engine.lean ====
section
/-! SUPPORT. What the engine can do, said once: one case split per shared operation (Step, the step of the host's machine,
RET and CALL, the operations of the host). -/

namespace Sys2Proof.Machine

variable {s t : State}

theorem andThen_eq_next {a : Answer} {f : State → State} :
    andThen a f = .next t ↔ ∃ u, a = .next u ∧ t = f u := by
  cases a <;> simp [andThen, eq_comm]

/-- The step of the host's machine is one Step and what lies between it and the next. -/
theorem step_eq_next : step s = .next t ↔ ∃ u, instrStep s = .next u ∧ t = u.betweenSteps :=
  andThen_eq_next

/-- What a Step can do (R43): nothing while halted, `InvalidOpcode`, or the decoded instruction. -/
theorem instrStep_cases (h : instrStep s = .next t) :
    (s.err ≠ .none ∧ t = s) ∨
    (s.err = .none ∧ decodeWord s.fetchWord = none ∧ t = s.takeFault .invalidOpcode) ∨
    (s.err = .none ∧ ∃ i, decodeWord s.fetchWord = some i ∧ exec i s = .next t) := by
  unfold instrStep at h
  split at h
  · next he => exact .inl ⟨he, by simpa using h.symm⟩
  · next he =>
    have he : s.err = .none := not_not.1 he
    split at h
    · next hd => exact .inr (.inl ⟨he, hd, by simpa using h.symm⟩)
    · next i hd => exact .inr (.inr ⟨he, i, hd, h⟩)

theorem instrStep_halted (h : s.err ≠ .none) : instrStep s = .next s := by simp [instrStep, h]

theorem instrStep_invalid (h : s.err = .none) (hd : decodeWord s.fetchWord = none) :
    instrStep s = .next (s.takeFault .invalidOpcode) := by simp [instrStep, h, hd]

theorem instrStep_decoded (h : s.err = .none) {i : Instr} (hd : decodeWord s.fetchWord = some i) :
    instrStep s = exec i s := by simp [instrStep, h, hd]

/-- What RET can do (R51). -/
theorem execRet_cases (h : execRet s = .next t) :
    (s.sp = 0 ∧ t = s.takeFault .stackUnderflow) ∨
    (s.sp ≠ 0 ∧ ∃ a, s.slot s.sp.toNat = some a ∧ t = { s.jump a with sp := s.sp - 1 }) := by
  unfold execRet at h
  split at h
  · next h0 => exact .inl ⟨h0, by simpa using h.symm⟩
  · next h0 =>
    split at h
    · next a ha => exact .inr ⟨h0, a, ha, by simpa using h.symm⟩
    · cases h

/-- What CALL can do (R53). -/
theorem execCall_cases {nnn : Addr} (h : execCall nnn s = .next t) :
    (s.sp = 16 ∧ t = s.takeFault .stackOverflow) ∨
    (s.sp ≠ 16 ∧ s.sp.toNat + 1 ≤ 16 ∧
      t = { (s.setSlot (s.sp.toNat + 1) s.pcNext).jump (zextAddr nnn) with sp := s.sp + 1 }) := by
  unfold execCall at h
  split at h
  · next h0 => exact .inl ⟨h0, by simpa using h.symm⟩
  · next h0 =>
    split at h
    · next a ha =>
      have := (s.slot_isSome (s.sp.toNat + 1)).1 (by simp [ha])
      exact .inr ⟨h0, this.2, by simpa using h.symm⟩
    · cases h

/-- Every instruction but RET and CALL answers a next state, in every state. -/
theorem exec_next_or_stack (i : Instr) (s : State) :
    (∃ t, exec i s = .next t) ∨ (i = .ret ∧ exec i s = .fault .noSuchStackSlot) ∨
      (∃ nnn, i = .call nnn ∧ exec i s = .fault .noSuchStackSlot) := by
  cases i
  case ret =>
    simp only [exec, execRet]
    split
    · exact .inl ⟨_, rfl⟩
    · split
      · exact .inl ⟨_, rfl⟩
      · simp
  case call nnn =>
    simp only [exec, execCall]
    split
    · exact .inl ⟨_, rfl⟩
    · split
      · exact .inl ⟨_, rfl⟩
      · simp
  all_goals exact .inl ⟨_, rfl⟩

/-! ### Operations of the host -/

@[simp] theorem HostedCore.inv_neverReset : HostedCore.neverReset.Inv := trivial

@[simp] theorem HostedCore.inv_live (loaded : Bool) : (HostedCore.live s loaded).Inv ↔ s.Inv := Iff.rfl

@[simp] theorem loadReply_of_running (h : s.err = .none) (bytes : List Byte) :
    loadReply s bytes = if bytes.length ≤ 3584 then .loaded else .tooLarge bytes.length := by
  by_cases hb : bytes.length ≤ 3584
  · simp [loadReply, State.loadProgram, h, hb, Config.memSize, Config.pcStart, Nat.not_lt.2 hb]
  · simp [loadReply, State.loadProgram, State.takeFault, h, hb, Config.memSize, Config.pcStart, Nat.lt_of_not_le hb]

/-- What LoadProgram can do on a core that has been reset (R29, R107). -/
theorem hostLoad_cases (bytes : List Byte) (s : State) (loaded : Bool) :
    (s.err ≠ .none ∧ hostLoad bytes s loaded = .next (.live s loaded, .halted s.err)) ∨
    (s.err = .none ∧ s.steps ≠ 0 ∧ hostLoad bytes s loaded = .refused .loadAfterFirstStep) ∨
    (s.err = .none ∧ s.steps = 0 ∧ loaded = true ∧ hostLoad bytes s loaded = .refused .secondLoad) ∨
    (s.err = .none ∧ s.steps = 0 ∧ loaded = false ∧
      hostLoad bytes s loaded = .next (.live (s.loadProgram bytes) true, loadReply s bytes)) := by
  by_cases he : s.err = .none
  · by_cases hs : s.steps = 0
    · cases loaded <;> simp [hostLoad, he, hs]
    · simp [hostLoad, he, hs]
  · simp [hostLoad, he]

/-- What the Step of the host can do: that of `instrStep` on the host's inputs, counted (R43, R107). -/
theorem hostInstr_eq_next {keys : Word} {rand : Byte} {loaded : Bool} {cr : HostedCore × Reply} :
    hostInstr keys rand s loaded = .next cr ↔
      ∃ u, instrStep { s with keys := keys, rand := rand } = .next u ∧
        cr = (.live { u with steps := s.steps + 1 } loaded, stepReply { s with keys := keys, rand := rand } u) := by
  cases h : instrStep { s with keys := keys, rand := rand } <;> simp [hostInstr, h, eq_comm]

end Sys2Proof.Machine
end

