-- ==== Sys2Proof/Laws/PerInstr.lean ====
section
/-! SUPPORT. Statements for all instructions, one lemma per constructor of Instr. -/

namespace Sys2Proof.Laws.EncodeRow

/-- The canonical word of an instruction selects the instruction's own row of the opcode map (R36, R38). -/
def Statement (i : Instr) : Prop := encode i &&& (rowOf i).2 = (rowOf i).1

theorem maskNNN (top : Nibble) (nnn : Addr) : wordNNN top nnn &&& 0xF000 = top ++ (0 : Addr) := by
  have h : wordNNN top nnn &&& (BitVec.allOnes 4 ++ (0 : Addr)) = top ++ (0 : Addr) := by
    rw [wordNNN, BitVec.and_append]
    simp only [BitVec.ofNat_eq_ofNat, BitVec.and_allOnes, BitVec.and_zero]
  exact h

theorem maskXKK (top : Nibble) (x : Reg) (kk : Byte) :
    wordXKK top x kk &&& 0xF000 = top ++ (0 : Nibble) ++ (0 : Byte) := by
  have h : wordXKK top x kk &&& (BitVec.allOnes 4 ++ (0 : Nibble) ++ (0 : Byte)) =
      top ++ (0 : Nibble) ++ (0 : Byte) := by
    rw [wordXKK, BitVec.and_append, BitVec.and_append]
    simp only [BitVec.ofNat_eq_ofNat, BitVec.and_allOnes, BitVec.and_zero]
  exact h

theorem maskX (top : Nibble) (x : Reg) (kk : Byte) :
    wordXKK top x kk &&& 0xF0FF = top ++ (0 : Nibble) ++ kk := by
  have h : wordXKK top x kk &&& (BitVec.allOnes 4 ++ (0 : Nibble) ++ BitVec.allOnes 8) =
      top ++ (0 : Nibble) ++ kk := by
    rw [wordXKK, BitVec.and_append, BitVec.and_append]
    simp only [BitVec.ofNat_eq_ofNat, BitVec.and_allOnes, BitVec.and_zero]
  exact h

theorem maskXYN (top : Nibble) (x y : Reg) (n : Nibble) :
    wordXYN top x y n &&& 0xF000 = top ++ (0 : Nibble) ++ (0 : Nibble) ++ (0 : Nibble) := by
  have h : wordXYN top x y n &&& (BitVec.allOnes 4 ++ (0 : Nibble) ++ (0 : Nibble) ++ (0 : Nibble)) =
      top ++ (0 : Nibble) ++ (0 : Nibble) ++ (0 : Nibble) := by
    rw [wordXYN, BitVec.and_append, BitVec.and_append, BitVec.and_append]
    simp only [BitVec.ofNat_eq_ofNat, BitVec.and_allOnes, BitVec.and_zero]
  exact h

theorem maskXY (top : Nibble) (x y : Reg) (n : Nibble) :
    wordXYN top x y n &&& 0xF00F = top ++ (0 : Nibble) ++ (0 : Nibble) ++ n := by
  have h : wordXYN top x y n &&& (BitVec.allOnes 4 ++ (0 : Nibble) ++ (0 : Nibble) ++ BitVec.allOnes 4) =
      top ++ (0 : Nibble) ++ (0 : Nibble) ++ n := by
    rw [wordXYN, BitVec.and_append, BitVec.and_append, BitVec.and_append]
    simp only [BitVec.ofNat_eq_ofNat, BitVec.and_allOnes, BitVec.and_zero]
  exact h

theorem cls : Statement .cls := rfl
theorem ret : Statement .ret := rfl
theorem jp (nnn : Addr) : Statement (.jp nnn) := maskNNN 0x1 nnn
theorem call (nnn : Addr) : Statement (.call nnn) := maskNNN 0x2 nnn
theorem seImm (x : Reg) (kk : Byte) : Statement (.seImm x kk) := maskXKK 0x3 x kk
theorem sneImm (x : Reg) (kk : Byte) : Statement (.sneImm x kk) := maskXKK 0x4 x kk
theorem seReg (x y : Reg) : Statement (.seReg x y) := maskXYN 0x5 x y 0
theorem sneReg (x y : Reg) : Statement (.sneReg x y) := maskXYN 0x9 x y 0
theorem ldImm (x : Reg) (kk : Byte) : Statement (.ldImm x kk) := maskXKK 0x6 x kk
theorem ldReg (x y : Reg) : Statement (.ldReg x y) := maskXY 0x8 x y 0x0
theorem addImm (x : Reg) (kk : Byte) : Statement (.addImm x kk) := maskXKK 0x7 x kk
theorem orReg (x y : Reg) : Statement (.orReg x y) := maskXY 0x8 x y 0x1
theorem andReg (x y : Reg) : Statement (.andReg x y) := maskXY 0x8 x y 0x2
theorem xorReg (x y : Reg) : Statement (.xorReg x y) := maskXY 0x8 x y 0x3
theorem addReg (x y : Reg) : Statement (.addReg x y) := maskXY 0x8 x y 0x4
theorem sub (x y : Reg) : Statement (.sub x y) := maskXY 0x8 x y 0x5
theorem subn (x y : Reg) : Statement (.subn x y) := maskXY 0x8 x y 0x7
theorem shr (x : Reg) : Statement (.shr x) := maskXY 0x8 x 0 0x6
theorem shl (x : Reg) : Statement (.shl x) := maskXY 0x8 x 0 0xE
theorem ldI (nnn : Addr) : Statement (.ldI nnn) := maskNNN 0xA nnn
theorem jpV0 (nnn : Addr) : Statement (.jpV0 nnn) := maskNNN 0xB nnn
theorem rnd (x : Reg) (kk : Byte) : Statement (.rnd x kk) := maskXKK 0xC x kk
theorem drw (x y : Reg) (n : Nibble) : Statement (.drw x y n) := maskXYN 0xD x y n
theorem skp (x : Reg) : Statement (.skp x) := maskX 0xE x 0x9E
theorem sknp (x : Reg) : Statement (.sknp x) := maskX 0xE x 0xA1
theorem ldVxDt (x : Reg) : Statement (.ldVxDt x) := maskX 0xF x 0x07
theorem ldVxK (x : Reg) : Statement (.ldVxK x) := maskX 0xF x 0x0A
theorem ldDtVx (x : Reg) : Statement (.ldDtVx x) := maskX 0xF x 0x15
theorem ldStVx (x : Reg) : Statement (.ldStVx x) := maskX 0xF x 0x18
theorem addI (x : Reg) : Statement (.addI x) := maskX 0xF x 0x1E
theorem ldF (x : Reg) : Statement (.ldF x) := maskX 0xF x 0x29
theorem ldB (x : Reg) : Statement (.ldB x) := maskX 0xF x 0x33
theorem ldMemVx (x : Reg) : Statement (.ldMemVx x) := maskX 0xF x 0x55
theorem ldVxMem (x : Reg) : Statement (.ldVxMem x) := maskX 0xF x 0x65

end Sys2Proof.Laws.EncodeRow
end

