-- ==== Sys2Proof/Tests/Slice0.lean ====
section
/-! SUPPORT. Tests, each about one step on a small state. The expected values are those of spec/95_test_vectors.md and of the
Example lines of the rules, never the model's own. The second half holds, for every statement with hypotheses, a state and
operands that meet them together. -/

namespace Sys2Proof.Tests

open Machine

/-! ### Ill-formed terms: one for each check of WellFormed.lean -/

def fieldsOfD12A : Fields := { top := 0xD, nnn := 0x12A, x := 1, y := 2, n := 0xA, kk := 0x2A }

theorem test_fields_wf : fieldsOfD12A.wellFormed = true := by decide
theorem test_fields_nnn_breaks_overlap : { fieldsOfD12A with nnn := 0x22A }.wellFormed = false := by decide
theorem test_fields_kk_breaks_overlap : { fieldsOfD12A with nnn := 0x12B, kk := 0x2B }.wellFormed = false := by decide
theorem test_asm_wf : (AsmLine.mk .drw [.v 0, .v 15, .num 15]).wellFormed = true := by decide
theorem test_asm_no_such_register : (AsmLine.mk .drw [.v 0, .v 16, .num 15]).wellFormed = false := by decide
theorem test_asm_n_too_wide : (AsmLine.mk .drw [.v 0, .v 15, .num 16]).wellFormed = false := by decide
theorem test_asm_kk_too_wide : (AsmLine.mk .add [.v 0, .num 256]).wellFormed = false := by decide
theorem test_asm_nnn_too_wide : (AsmLine.mk .call [.num 4096]).wellFormed = false := by decide
theorem test_asm_kinds_select_no_row : (AsmLine.mk .sub [.v 0, .num 1]).wellFormed = false := by decide
theorem test_asm_jp_needs_v0 : (AsmLine.mk .jp [.v 1, .num 0x300]).wellFormed = false := by decide
theorem test_asm_refuses_ill_formed : assemble ⟨.drw, [.v 0, .v 15, .num 16]⟩ = none := by decide

/-! ### Decoding: words written out from R38 and section 2.1 -/

theorem test_decode_cls : decodeWord 0x00E0 = some .cls := by decide
theorem test_decode_cls_ignored_digit : decodeWord 0x03E0 = some .cls := by decide
theorem test_decode_ret : decodeWord 0x00EE = some .ret := by decide
theorem test_decode_no_sys : decodeWord 0x0123 = none := by decide
theorem test_decode_jp : decodeWord 0x12AB = some (.jp 0x2AB) := by decide
theorem test_decode_call : decodeWord 0x2ABC = some (.call 0xABC) := by decide
theorem test_decode_seImm : decodeWord 0x3342 = some (.seImm 3 0x42) := by decide
theorem test_decode_sneImm : decodeWord 0x4343 = some (.sneImm 3 0x43) := by decide
theorem test_decode_seReg : decodeWord 0x5121 = some (.seReg 1 2) := by decide
theorem test_decode_sneReg : decodeWord 0x9340 = some (.sneReg 3 4) := by decide
theorem test_decode_ldImm : decodeWord 0x6AC8 = some (.ldImm 10 0xC8) := by decide
theorem test_decode_addImm : decodeWord 0x7AFF = some (.addImm 10 0xFF) := by decide
theorem test_decode_ldReg : decodeWord 0x8340 = some (.ldReg 3 4) := by decide
theorem test_decode_orReg : decodeWord 0x8121 = some (.orReg 1 2) := by decide
theorem test_decode_andReg : decodeWord 0x8122 = some (.andReg 1 2) := by decide
theorem test_decode_xorReg : decodeWord 0x8123 = some (.xorReg 1 2) := by decide
theorem test_decode_addReg : decodeWord 0x8AB4 = some (.addReg 10 11) := by decide
theorem test_decode_sub : decodeWord 0x8125 = some (.sub 1 2) := by decide
theorem test_decode_shr : decodeWord 0x8AF6 = some (.shr 10) := by decide
theorem test_decode_subn : decodeWord 0x8127 = some (.subn 1 2) := by decide
theorem test_decode_shl : decodeWord 0x812E = some (.shl 1) := by decide
theorem test_decode_family8_invalid : decodeWord 0x8AB8 = none ∧ decodeWord 0x8ABF = none := by decide
theorem test_decode_ldI : decodeWord 0xAFFF = some (.ldI 0xFFF) := by decide
theorem test_decode_jpV0 : decodeWord 0xB300 = some (.jpV0 0x300) := by decide
theorem test_decode_rnd : decodeWord 0xC30F = some (.rnd 3 0x0F) := by decide
theorem test_decode_drw : decodeWord 0xD12A = some (.drw 1 2 10) := by decide
theorem test_decode_skp : decodeWord 0xE19E = some (.skp 1) := by decide
theorem test_decode_sknp : decodeWord 0xE5A1 = some (.sknp 5) := by decide
theorem test_decode_familyE_invalid : decodeWord 0xE19F = none := by decide
theorem test_decode_ldVxDt : decodeWord 0xF407 = some (.ldVxDt 4) := by decide
theorem test_decode_ldVxK : decodeWord 0xF60A = some (.ldVxK 6) := by decide
theorem test_decode_ldDtVx : decodeWord 0xF415 = some (.ldDtVx 4) := by decide
theorem test_decode_ldStVx : decodeWord 0xF418 = some (.ldStVx 4) := by decide
theorem test_decode_addI : decodeWord 0xF11E = some (.addI 1) := by decide
theorem test_decode_ldF : decodeWord 0xF229 = some (.ldF 2) := by decide
theorem test_decode_ldB : decodeWord 0xF033 = some (.ldB 0) := by decide
theorem test_decode_ldMemVx : decodeWord 0xFA55 = some (.ldMemVx 10) := by decide
theorem test_decode_ldVxMem : decodeWord 0xF165 = some (.ldVxMem 1) := by decide
theorem test_decode_familyF_invalid : decodeWord 0xF175 = none ∧ decodeWord 0xFFFF = none := by decide
theorem test_decode_bytes_leave_the_rest : decode [0x8A, 0xB4, 0x12] = .ok (.addReg 10 11, [0x12]) := by decide
theorem test_decode_bytes_truncated : decode [0x8A] = .error .truncated := by decide
theorem test_decode_bytes_invalid : decode [0xFF, 0xFF] = .error (.invalidOpcode 0xFFFF) := by decide
theorem test_decodeTableWord_byte_order : decodeTableWord 16 0x8AB4 = some (.addReg 10 11) := by decide
theorem test_assemble_skp : assemble ⟨.skp, [.v 1]⟩ = some (.skp 1) := by decide

/-! ### Single Steps -/

/-- A state after Reset with a word at 0x200, where `PC` stands. -/
def holding (high low : Byte) : State := State.reset.placeInstruction (high, low)

/-- What one Step leaves. -/
def after (s : State) : Option State :=
  match instrStep s with
  | .next t => some t
  | _ => none

/-- Two registers, `PC` and VF after one Step. -/
def regsAfter (s : State) (x y : Reg) : Option (Byte × Byte × Word) :=
  (after s).map fun t => (t.reg x, t.reg y, t.pc)

theorem test_reset_step_faults : (after State.reset).map (fun t => (t.err, t.pc)) = some (.invalidOpcode, 0x200) := by
  decide
theorem test_fetch_wraps :
    (((State.reset.writeByte 0xFFF 0x12).jump 0x0FFF).fetchWord) = 0x12F0 := by decide
theorem test_step_runs_first_instruction :
    (match step (State.reset.withFetchWord 16 0x6AC8) with | .next t => some (t.reg 10, t.pc) | _ => none) =
      some (0xC8, 0x202) := by decide

theorem test_jp : (after (holding 0x1F 0xFF)).map (·.pc) = some 0xFFF := by decide
theorem test_call : (after (holding 0x2A 0xBC)).map (fun t => (t.slot 1, t.sp, t.pc)) = some (some 0x202, 1, 0xABC) := by
  decide
theorem test_call_sixteenth :
    (after { holding 0x23 0x00 with sp := 15 }).map (fun t => (t.slot 16, t.sp, t.pc)) = some (some 0x202, 16, 0x300) := by
  decide
theorem test_call_overflow :
    (after { holding 0x23 0x00 with sp := 16 }).map (fun t => (t.err, t.sp, t.pc)) = some (.stackOverflow, 16, 0x200) := by
  decide
theorem test_ret :
    (after { (holding 0x00 0xEE).setSlot 1 0xABC with sp := 1 }).map (fun t => (t.pc, t.sp, t.slot 1)) =
      some (0xABC, 0, some 0xABC) := by decide
theorem test_ret_underflow :
    (after (holding 0x00 0xEE)).map (fun t => (t.err, t.sp, t.pc)) = some (.stackUnderflow, 0, 0x200) := by decide
theorem test_seImm_skips : (after ((holding 0x33 0x42).setReg 3 0x42)).map (·.pc) = some 0x204 := by decide
theorem test_seImm_goes_on : (after ((holding 0x33 0x43).setReg 3 0x42)).map (·.pc) = some 0x202 := by decide
theorem test_sneImm_skips : (after ((holding 0x43 0x43).setReg 3 0x42)).map (·.pc) = some 0x204 := by decide
theorem test_sneImm_goes_on : (after ((holding 0x43 0x42).setReg 3 0x42)).map (·.pc) = some 0x202 := by decide
theorem test_seReg_skips : (after (((holding 0x53 0x40).setReg 3 1).setReg 4 1)).map (·.pc) = some 0x204 := by decide
theorem test_seReg_goes_on : (after (((holding 0x53 0x40).setReg 3 1).setReg 4 2)).map (·.pc) = some 0x202 := by decide
theorem test_sneReg_skips : (after (((holding 0x93 0x40).setReg 3 1).setReg 4 2)).map (·.pc) = some 0x204 := by decide
theorem test_sneReg_goes_on : (after (holding 0x93 0x30)).map (·.pc) = some 0x202 := by decide
theorem test_jpV0_keeps_sixteen_bits : (after ((holding 0xBF 0xFF).setReg 0 0xFF)).map (·.pc) = some 0x10FE := by decide
theorem test_pc_wraps :
    (after ((State.reset.writeByte 0xFFE 0x60).jump 0xFFFE)).map (·.pc) = some 0 := by decide

theorem test_ldImm : regsAfter (holding 0x61 0xAB) 1 VF = some (0xAB, 0, 0x202) := by decide
theorem test_addImm_no_flag : regsAfter (((holding 0x71 0x01).setReg 1 0xFF).setReg VF 7) 1 VF = some (0, 7, 0x202) := by
  decide
theorem test_ldReg : regsAfter ((holding 0x81 0x20).setReg 2 0x5A) 1 2 = some (0x5A, 0x5A, 0x202) := by decide
theorem test_orReg : regsAfter (((holding 0x81 0x21).setReg 1 0x0F).setReg 2 0xF0) 1 VF = some (0xFF, 0, 0x202) := by
  decide
theorem test_andReg : regsAfter (((holding 0x81 0x22).setReg 1 0xF0).setReg 2 0x3C) 1 VF = some (0x30, 0, 0x202) := by
  decide
theorem test_xorReg : regsAfter (((holding 0x81 0x23).setReg 1 0xF0).setReg 2 0x3C) 1 VF = some (0xCC, 0, 0x202) := by
  decide
theorem test_addReg_carry : regsAfter (((holding 0x81 0x24).setReg 1 0xFF).setReg 2 1) 1 VF = some (0, 1, 0x202) := by
  decide
theorem test_addReg_vf_destination :
    regsAfter (((holding 0x8F 0x14).setReg VF 0xF0).setReg 1 0x20) VF 1 = some (1, 0x20, 0x202) := by decide
theorem test_sub_equal : regsAfter (((holding 0x81 0x25).setReg 1 5).setReg 2 5) 1 VF = some (0, 1, 0x202) := by decide
theorem test_sub_vf_operand : regsAfter (((holding 0x81 0xF5).setReg 1 5).setReg VF 6) 1 VF = some (0xFF, 0, 0x202) := by
  decide
theorem test_subn_borrow : regsAfter (((holding 0x81 0x27).setReg 1 5).setReg 2 3) 1 VF = some (0xFE, 0, 0x202) := by
  decide
theorem test_subn_no_borrow : regsAfter (((holding 0x81 0x27).setReg 1 3).setReg 2 5) 1 VF = some (2, 1, 0x202) := by
  decide
theorem test_shr_in_place : regsAfter (((holding 0x81 0x26).setReg 1 0x80).setReg 2 3) 1 2 = some (0x40, 3, 0x202) := by
  decide
theorem test_shr_flag : regsAfter ((holding 0x81 0x26).setReg 1 0xFF) 1 VF = some (0x7F, 1, 0x202) := by decide
theorem test_shl_flag_is_one : regsAfter ((holding 0x81 0x2E).setReg 1 0x80) 1 VF = some (0, 1, 0x202) := by decide
theorem test_shl_vf : regsAfter ((holding 0x8F 0x0E).setReg VF 0x81) VF 0 = some (1, 0, 0x202) := by decide

theorem test_ldI : (after (holding 0xAF 0xFF)).map (·.i) = some 0xFFF := by decide
theorem test_addI_wraps : (after (((holding 0xF1 0x1E).setReg 1 0xFF).setI 0xF80)).map (·.i) = some 0x07F := by decide
theorem test_addI_no_flag :
    (after ((((holding 0xF1 0x1E).setReg 1 1).setReg VF 9).setI 0xFFF)).map (fun t => (t.i, t.reg VF)) = some (0, 9) := by
  decide
theorem test_ldF_digit : (after ((holding 0xF1 0x29).setReg 1 0x0A)).map (·.i) = some 0x32 := by decide
theorem test_ldF_unmasked : (after ((holding 0xF1 0x29).setReg 1 0xFF)).map (·.i) = some 0x4FB := by decide
theorem test_ldB : (after (((holding 0xF0 0x33).setReg 0 234).setI 0x300)).map (fun t => t.readBytes 0x300 3) =
    some [2, 3, 4] := by decide
theorem test_ldB_wraps : (after (((holding 0xF1 0x33).setReg 1 199).setI 0xFFE)).map (fun t => t.readBytes 0xFFE 4) =
    some [1, 9, 9, 0x90] := by decide
theorem test_ldMemVx :
    (after ((((holding 0xF1 0x55).setReg 0 2).setReg 1 3).setI 0x303)).map (fun t => (t.readBytes 0x303 3, t.i)) =
      some ([2, 3, 0], 0x303) := by decide
theorem test_ldVxMem :
    (after (((((holding 0xF1 0x65).writeByte 0x400 9).writeByte 0x401 8).setReg 2 0x55).setI 0x400)).map
      (fun t => (t.reg 0, t.reg 1, t.reg 2, t.i)) = some (9, 8, 0x55, 0x400) := by decide

/-- A state that will draw the one-row sprite `row` at `(V0, V1)`. -/
def drawing (row cx cy : Byte) : State :=
  ((((holding 0xD0 0x11).writeByte 0x300 row).setI 0x300).setReg 0 cx).setReg 1 cy

theorem test_cls : (after (((holding 0x00 0xE0).setReg VF 7).setFb 5)).map
    (fun t => (t.cell 0 0, t.cell 2 0, t.fbDirty, t.reg VF)) = some (false, false, true, 7) := by decide +kernel
theorem test_drw_wraps_columns :
    (after (drawing 0xFF 63 0)).map (fun t => ((List.range 9).map (t.cell · 0), t.cell 63 0, t.reg VF)) =
      some ([true, true, true, true, true, true, true, false, false], true, 0) := by decide +kernel
theorem test_drw_start_is_reduced :
    (after (drawing 0x80 70 33)).map (fun t => (t.cell 6 1, t.cell 7 1, t.cell 6 0)) = some (true, false, false) := by
  decide +kernel
theorem test_drw_collision :
    (after ((drawing 0xC0 0 0).setFb 1)).map (fun t => (t.cell 0 0, t.cell 1 0, t.reg VF)) = some (false, true, 1) := by
  decide +kernel
theorem test_drw_no_rows :
    (after (((holding 0xD0 0x10).setReg VF 1).setFb 1)).map (fun t => (t.cell 0 0, t.reg VF, t.fbDirty)) =
      some (true, 0, true) := by decide +kernel

theorem test_rnd : regsAfter { holding 0xC3 0x0F with rand := 0xA7 } 3 VF = some (0x07, 0, 0x202) := by decide
theorem test_skp_held : (after { (holding 0xE1 0x9E).setReg 1 15 with keys := 0x8000 }).map (·.pc) = some 0x204 := by
  decide
theorem test_skp_no_key_sixteen :
    (after { (holding 0xE1 0x9E).setReg 1 16 with keys := 0xFFFF }).map (·.pc) = some 0x202 := by decide
theorem test_sknp_held : (after { holding 0xE1 0xA1 with keys := 1 }).map (·.pc) = some 0x202 := by decide
theorem test_sknp_no_key_sixteen :
    (after { (holding 0xE1 0xA1).setReg 1 16 with keys := 0xFFFF }).map (·.pc) = some 0x204 := by decide
theorem test_ldVxDt : (after { holding 0xF1 0x07 with dt := 0x3B }).map (fun t => (t.reg 1, t.dt)) = some (0x3B, 0x3B) := by
  decide
theorem test_ldVxK_waits : (after { holding 0xF1 0x0A with keys := 0 }).map (·.pc) = some 0x200 := by decide
theorem test_ldVxK_lowest : regsAfter { holding 0xF1 0x0A with keys := 0x8002 } 1 0 = some (1, 0, 0x202) := by decide
theorem test_ldDtVx : (after ((holding 0xF1 0x15).setReg 1 0xFF)).map (fun t => (t.dt, t.st)) = some (0xFF, 0) := by decide
theorem test_ldStVx : (after ((holding 0xF1 0x18).setReg 1 2)).map (fun t => (t.st, t.dt)) = some (2, 0) := by decide

/-! ### Host operations -/

theorem test_tick : ({ State.reset with dt := 0xFF, st := 2 }.tick.dt, { State.reset with dt := 0xFF, st := 2 }.tick.st) =
    ((0xFE, 1) : Byte × Byte) := by decide
theorem test_tick_floor : (State.reset.tick.dt, { State.reset with err := .invalidOpcode, dt := 5 }.tick.dt) =
    ((0, 4) : Byte × Byte) := by decide
theorem test_load : (State.reset.loadProgram [0x12, 0x00]).readBytes 0x200 3 = [0x12, 0x00, 0] := by decide
theorem test_load_faults_above_bound (bytes : List Byte) (h : bytes.length = 3585) :
    (State.reset.loadProgram bytes).err = .programTooLarge := by
  simp [State.loadProgram, h, Config.memSize, Config.pcStart, show State.reset.err = .none from rfl]
theorem test_reply_waiting :
    (match hostStep (.step 0 0) (.live (holding 0xF1 0x0A) true) with | .next (_, r) => some r | _ => none) = some .waiting := by decide
theorem test_reply_faulted :
    (match hostStep (.step 0 0) (.live State.reset false) with | .next (_, r) => some r | _ => none) =
      some (.faulted .invalidOpcode 0x200 0) := by decide
theorem test_reply_waits_only_without_key :
    (match hostStep (.step 1 0) (.live (holding 0xF1 0x0A) true) with | .next (_, r) => some r | _ => none) =
      some .completed := by decide
/-- R104: Reset, LoadProgram, then a Step runs the first instruction of the image. -/
theorem test_boot :
    (match hostRun [.reset, .loadProgram [0x6A, 0xC8], .tick, .step 0 0] (.neverReset, .nothing) with
      | .next (.live s _, r) => some (s.reg 10, s.pc, r)
      | _ => none) = some (0xC8, 0x202, .completed) := by decide
theorem test_reset_forgets_the_load : hostStep .reset (.live { State.reset with steps := 9, pc := 4 } true) =
    .next (.live State.reset false, .nothing) := rfl
theorem test_codes : [FaultCode.none, .invalidOpcode, .stackOverflow, .stackUnderflow, .programTooLarge].map
    FaultCode.code = [0, 1, 2, 3, 4] := by decide

/-! ### For every statement with hypotheses, what meets them together -/

theorem witness_invalidWords : decodeWord 0x0000 = none ∧ decodeWord 0x80F8 = none ∧ decodeWord 0xE09F = none ∧
    decodeWord 0xF000 = none ∧ decodeWord 0xF065 ≠ none := by decide
theorem witness_encodeInvertsDecode : decodeWord 0x5121 = some (.seReg 1 2) ∧ encode (.seReg 1 2) = 0x5120 := by decide
theorem witness_stepRunsTheDecodedInstruction :
    (holding 0x6A 0xC8).Running ∧ decodeWord (holding 0x6A 0xC8).fetchWord = some (.ldImm 10 0xC8) := by decide
theorem witness_invalidOpcode : State.reset.Running ∧ decodeWord State.reset.fetchWord = none := by decide
theorem witness_haltedEngine : (State.reset.takeFault .programTooLarge).err ≠ .none := by decide

theorem witness_faultsArePrecise_invalidOpcode :
    ∃ s t : State, s.Running ∧ instrStep s = .next t ∧ t.err = .invalidOpcode :=
  ⟨State.reset, _, by decide, instrStep_invalid (by decide) (by decide), rfl⟩
theorem witness_faultsArePrecise_stackUnderflow :
    ∃ s t : State, s.Running ∧ instrStep s = .next t ∧ t.err = .stackUnderflow :=
  ⟨holding 0x00 0xEE, _, by decide, instrStep_decoded (i := .ret) (by decide) (by decide), rfl⟩
theorem witness_faultsArePrecise_stackOverflow :
    ∃ s t : State, s.Running ∧ instrStep s = .next t ∧ t.err = .stackOverflow :=
  ⟨{ holding 0x22 0x00 with sp := 16 }, _, by decide, instrStep_decoded (i := .call 0x200) (by decide) (by decide), rfl⟩
theorem witness_onlyRetAndCall :
    (∃ t, exec .ret State.reset = .next t ∧ t.err ≠ State.reset.err) ∧
    ∃ t, exec (.call 0x300) { State.reset with sp := 16 } = .next t ∧ t.err ≠ State.reset.err :=
  ⟨⟨_, rfl, by decide⟩, ⟨_, rfl, by decide⟩⟩
theorem witness_stepReturns_waiting :
    ∃ s t : State, s.Running ∧ instrStep s = .next t ∧ t.Running ∧ stepReply s t = .waiting :=
  ⟨{ holding 0xF1 0x0A with keys := 0 }, _, by decide, instrStep_decoded (i := .ldVxK 1) (by decide) (by decide),
    by decide, by decide⟩
theorem witness_stepReturns_completed :
    ∃ s t : State, s.Running ∧ instrStep s = .next t ∧ t.Running ∧ stepReply s t = .completed :=
  ⟨holding 0x6A 0xC8, _, by decide, instrStep_decoded (i := .ldImm 10 0xC8) (by decide) (by decide), by decide, by decide⟩
theorem witness_hostOperations :
    State.reset.steps = 0 ∧ (State.reset.takeFault .invalidOpcode).err ≠ .none ∧
    { State.reset with steps := 1 }.steps ≠ 0 ∧ { State.reset with steps := 1 }.Running ∧
    ∃ t, instrStep { State.reset with keys := 3, rand := 5 } = .next t :=
  ⟨by decide, by decide, by decide, by decide, _, instrStep_invalid (by decide) (by decide)⟩

theorem witness_ret : State.reset.sp = 0 ∧ (∃ a, { State.reset with sp := 1 }.slot 1 = some a) ∧
    ∃ a, { State.reset with sp := 16 }.slot 16 = some a := ⟨by decide, ⟨0, by decide⟩, ⟨0, by decide⟩⟩
theorem witness_call : { State.reset with sp := 16 }.sp = 16 ∧ { State.reset with sp := 15 }.sp.toNat < 16 ∧
    State.reset.sp.toNat < 16 := by decide
theorem witness_retReturnsAfterTheCall :
    ∃ s u t : State, s.sp.toNat < 16 ∧ exec (.call 0x300) s = .next t ∧ u.sp = t.sp ∧ u.stack = t.stack :=
  ⟨State.reset, _, _, by decide, rfl, rfl, rfl⟩
theorem witness_retAndCallStop : 16 < { State.reset with sp := 17 }.sp.toNat ∧
    16 < { State.reset with sp := 255 }.sp.toNat := by decide
theorem witness_skipsOnImmediate : ((holding 0x33 0x42).setReg 3 0x42).reg 3 = 0x42 ∧
    ((holding 0x33 0x42).setReg 3 0x42).reg 3 ≠ 0x43 := by decide
theorem witness_skipsOnRegister : State.reset.reg 3 = State.reset.reg 4 ∧
    (State.reset.setReg 3 1).reg 3 ≠ (State.reset.setReg 3 1).reg 4 := by decide
theorem witness_flagInstructions_destinations : (1 : Reg) ≠ VF ∧ (14 : Reg) ≠ VF ∧ (15 : Reg) = VF := by decide
theorem witness_addSetsCarry_boundary : (0xFF : Byte).toNat + (0x01 : Byte).toNat > 255 ∧
    ¬ (0xFF : Byte).toNat + (0x00 : Byte).toNat > 255 := by decide
theorem witness_ldMemVx_address : 0x001 = ((0xFFE : Word).toNat + 3) % 4096 ∧ 0xFFE = ((0xFFE : Word).toNat + 0) % 4096 := by
  decide
theorem witness_ldMemVx_outside : ∀ k ≤ 3, 0x003 ≠ ((0xFFE : Word).toNat + k) % 4096 := by decide
theorem witness_ldVxMem_above : (2 : Reg) ≤ 2 ∧ (2 : Reg) < 3 := by decide
theorem witness_drw_covered : (drawing 0x01 63 31).SpriteCovers 0 1 1 6 31 :=
  ⟨0, by decide, 7, by decide, by decide, by decide, by decide⟩
theorem witness_drw_not_covered : ¬ State.reset.SpriteCovers 0 1 0 0 0 :=
  fun ⟨_, h, _⟩ => absurd h (Nat.not_lt_zero _)
theorem witness_drwTwice : (0 : Reg) ≠ VF ∧ (1 : Reg) ≠ VF ∧
    ∃ t, exec (.drw 0 1 1) (drawing 0x80 0 0) = .next t ∧ (drawing 0x80 0 0).cell 0 0 = false ∧ t.cell 0 0 = true :=
  ⟨by decide, by decide, _, rfl, by decide +kernel, by decide +kernel⟩
theorem witness_keySkips_boundary :
    ({ State.reset.setReg 1 15 with keys := 0x8000 }.reg 1).toNat ≤ 15 ∧
    ({ State.reset.setReg 1 15 with keys := 0x8000 }.keys).getLsbD
      ({ State.reset.setReg 1 15 with keys := 0x8000 }.reg 1).toNat = true ∧
    ¬ ((State.reset.setReg 1 16).reg 1).toNat ≤ 15 := by decide
theorem witness_timerMoves : State.reset.reg 3 = 0 ∧ (State.reset.setReg 3 1).reg 3 ≠ 0 := by decide
theorem witness_ldVxK : { State.reset with keys := 0 }.keys = 0 ∧ { State.reset with keys := 0x8000 }.keys ≠ 0 := by decide

theorem witness_stepKeepsLegalValues : ∃ s t : State, s.Inv ∧ step s = .next t :=
  ⟨State.reset, _, by decide, step_eq_next.2 ⟨_, instrStep_invalid (by decide) (by decide), rfl⟩⟩
theorem witness_legalStates : State.reset.Inv ∧ { State.reset with sp := 16, i := 0xFFF }.Inv ∧
    ¬ { State.reset with sp := 17 }.Inv ∧ ¬ { State.reset with i := 0x1000 }.Inv ∧
    ¬ { State.reset with mem := [(4096, 1)] }.Inv ∧ ¬ { State.reset with mem := [(5, 1), (5, 2)] }.Inv ∧
    ¬ { State.reset with mem := [(0, 0xF0)] }.Inv := by decide
theorem witness_hostKeepsLegalValues : HostedCore.neverReset.Inv ∧ (HostedCore.live State.reset false).Inv ∧
    (HostedCore.live State.reset true).Inv := by
  simp only [HostedCore.inv_neverReset, HostedCore.inv_live]
  decide
theorem witness_hostRefusesLateLoad :
    hostStep (.loadProgram []) (.live { State.reset with steps := 1 } false) = .refused .loadAfterFirstStep := rfl
theorem witness_hostRefusesSecondLoad : hostStep (.loadProgram []) (.live State.reset true) = .refused .secondLoad := rfl
theorem witness_onlyResetBeforeReset : HostOp.step 0 0 ≠ .reset ∧ HostOp.tick ≠ .reset ∧ HostOp.clearDirty ≠ .reset ∧
    HostOp.loadProgram [] ≠ .reset := by decide
theorem witness_onlyDestinations : ∃ t, exec (.addReg 1 2) State.reset = .next t ∧
    (Instr.addReg 1 2).hasDestination 3 = false ∧ (3 : Reg) ≠ VF ∧ (Instr.addReg 1 2).writesFlag = true :=
  ⟨_, rfl, by decide, by decide, by decide⟩
theorem witness_onlyDestinations_vf : ∃ t, exec (.addImm 1 2) State.reset = .next t ∧
    (Instr.addImm 1 2).hasDestination VF = false ∧ (Instr.addImm 1 2).writesFlag = false := ⟨_, rfl, by decide, by decide⟩
theorem witness_onlyStores_memory : ∃ t, exec (.ldMemVx 0) ((State.reset.setReg 0 7).setI 0x300) = .next t ∧
    t.mem.read 0x300 ≠ ((State.reset.setReg 0 7).setI 0x300).mem.read 0x300 := ⟨_, rfl, by decide⟩
theorem witness_onlyCalls_stack : ∃ t, exec (.call 0x300) State.reset = .next t ∧ t.slot 1 ≠ State.reset.slot 1 ∧
    t.sp ≠ State.reset.sp := ⟨_, rfl, by decide, by decide⟩
theorem witness_inputsNotSeen : (∀ x : Reg, Instr.cls ≠ .skp x ∧ Instr.cls ≠ .sknp x ∧ Instr.cls ≠ .ldVxK x) ∧
    (∀ (x : Reg) (kk : Byte), Instr.cls ≠ .rnd x kk) ∧ ∀ x : Reg, Instr.cls ≠ .ldStVx x :=
  ⟨fun _ => ⟨nofun, nofun, nofun⟩, fun _ _ => nofun, fun _ => nofun⟩
theorem witness_loadProgram : State.reset.Running ∧ (List.replicate 3584 (0 : Byte)).length ≤ 3584 ∧
    3584 < (List.replicate 3585 (0 : Byte)).length ∧ (State.reset.takeFault .invalidOpcode).err ≠ .none :=
  ⟨by decide, by rw [List.length_replicate], by rw [List.length_replicate]; decide, by decide⟩
theorem witness_finished : (holding 0x12 0x00).FinishedAt 0x200 := by decide
theorem witness_storesSeen : ∃ s u t : State, (0 : Reg) < 1 ∧ exec (.ldMemVx 1) s = .next t ∧ u.mem = t.mem ∧
    u.pc.toNat % 4096 = (s.i.toNat + (0 : Reg).val) % 4096 :=
  ⟨State.reset.setI 0x202, _, _, by decide, rfl, rfl, by decide⟩
theorem witness_canonicalMemory : Memory.wf [(0x200, 1)] = true ∧ Memory.wf [] = true ∧
    Memory.read [(0x200, 1)] 0x200 ≠ Memory.read [] 0x200 := by decide

end Sys2Proof.Tests
end

section
/-! SUPPORT. What an instruction can do to each part of the state that has illegal values (R5): `I`, `SP` and the memory
list, one lemma per part; and that a step keeps their values legal. -/

namespace Sys2Proof.Machine

variable {s t : State} {i : Instr}

/-! ### Fields an instruction writes -/

/-- What LD Vx,K can do (R84). -/
theorem execLdVxK_cases {x : Reg} (h : execLdVxK x s = .next t) :
    (s.keys = 0 ∧ t = s) ∨ (s.keys ≠ 0 ∧ t = (s.setReg x s.leastKey).advance) := by
  unfold execLdVxK at h
  split at h
  · next hk => exact .inl ⟨hk, by simpa using h.symm⟩
  · next hk => exact .inr ⟨hk, by simpa using h.symm⟩

/-- Only LD I,nnn, ADD I,Vx and LD F,Vx write `I` (R8). -/
theorem exec_i_cases (h : exec i s = .next t) :
    t.i = s.i ∨ (∃ nnn, i = .ldI nnn ∧ t.i = zextAddr nnn) ∨ (∃ x, i = .addI x ∧ t.i = s.indexSum x) ∨
      (∃ x, i = .ldF x ∧ t.i = s.glyphAddress x) := by
  cases i
  case ldI nnn => cases h; exact .inr (.inl ⟨nnn, rfl, rfl⟩)
  case addI x => cases h; exact .inr (.inr (.inl ⟨x, rfl, rfl⟩))
  case ldF x => cases h; exact .inr (.inr (.inr ⟨x, rfl, rfl⟩))
  all_goals left
  case ret => obtain ⟨-, rfl⟩ | ⟨-, a, -, rfl⟩ := execRet_cases h <;> rfl
  case call => obtain ⟨-, rfl⟩ | ⟨-, -, rfl⟩ := execCall_cases h <;> rfl
  case ldVxK => obtain ⟨-, rfl⟩ | ⟨-, rfl⟩ := execLdVxK_cases h <;> rfl
  case ldB | ldMemVx => cases h; exact State.writeBytes_i ..
  all_goals cases h; rfl

/-- Only RET and CALL write `SP`: RET takes one frame off where there is one, CALL puts one on where there is room (R10). -/
theorem exec_sp_cases (h : exec i s = .next t) :
    t.sp = s.sp ∨ (i = .ret ∧ s.sp ≠ 0 ∧ t.sp = s.sp - 1) ∨
      (∃ nnn, i = .call nnn ∧ s.sp.toNat + 1 ≤ 16 ∧ t.sp = s.sp + 1) := by
  cases i
  case ret =>
    obtain ⟨-, rfl⟩ | ⟨h0, a, -, rfl⟩ := execRet_cases h
    · exact .inl rfl
    · exact .inr (.inl ⟨rfl, h0, rfl⟩)
  case call nnn =>
    obtain ⟨-, rfl⟩ | ⟨-, hroom, rfl⟩ := execCall_cases h
    · exact .inl rfl
    · exact .inr (.inr ⟨nnn, rfl, hroom, rfl⟩)
  all_goals left
  case ldVxK => obtain ⟨-, rfl⟩ | ⟨-, rfl⟩ := execLdVxK_cases h <;> rfl
  case ldB | ldMemVx => cases h; exact State.writeBytes_sp ..
  all_goals cases h; rfl

/-- Only LD B,Vx and LD [I],Vx write memory, both as a run of bytes from `I` on (R18). -/
theorem exec_mem_cases (h : exec i s = .next t) :
    t.mem = s.mem ∨ (∃ x, i = .ldB x ∧ t.mem = (s.writeBytes s.i (bcdDigits (s.reg x))).mem) ∨
      (∃ x, i = .ldMemVx x ∧ t.mem = (s.writeBytes s.i (s.regsUpTo x)).mem) := by
  cases i
  case ldB x => cases h; exact .inr (.inl ⟨x, rfl, rfl⟩)
  case ldMemVx x => cases h; exact .inr (.inr ⟨x, rfl, rfl⟩)
  all_goals left
  case ret => obtain ⟨-, rfl⟩ | ⟨-, a, -, rfl⟩ := execRet_cases h <;> rfl
  case call => obtain ⟨-, rfl⟩ | ⟨-, -, rfl⟩ := execCall_cases h <;> rfl
  case ldVxK => obtain ⟨-, rfl⟩ | ⟨-, rfl⟩ := execLdVxK_cases h <;> rfl
  all_goals cases h; rfl

/-! ### Legal values -/

theorem zextAddr_toNat (nnn : Addr) : (zextAddr nnn).toNat = nnn.toNat :=
  BitVec.toNat_setWidth_of_le (by decide)

theorem zextByte_toNat (b : Byte) : (zextByte b).toNat = b.toNat :=
  BitVec.toNat_setWidth_of_le (by decide)

/-- No glyph address wraps: the largest is 1275 (R73). -/
theorem State.glyphAddress_toNat (s : State) (x : Reg) : (s.glyphAddress x).toNat = (s.reg x).toNat * 5 := by
  have := (s.reg x).isLt
  rw [State.glyphAddress, BitVec.toNat_mul, zextByte_toNat, show (BitVec.ofNat 16 Config.glyphBytes).toNat = 5 from rfl]
  omega

theorem zextAddr_le (nnn : Addr) : zextAddr nnn ≤ 0x0FFF := by
  rw [BitVec.le_def, zextAddr_toNat]
  exact Nat.le_of_lt_succ nnn.isLt

theorem State.indexSum_le (s : State) (x : Reg) : s.indexSum x ≤ 0x0FFF := by
  simp only [State.indexSum, BitVec.le_def, BitVec.toNat_and]
  exact Nat.and_le_right

theorem State.glyphAddress_le (s : State) (x : Reg) : s.glyphAddress x ≤ 0x0FFF := by
  have := (s.reg x).isLt
  rw [BitVec.le_def, State.glyphAddress_toNat, show (0x0FFF : Word).toNat = 4095 from rfl]
  omega

theorem exec_i_le (h : exec i s = .next t) (hs : s.i ≤ 0x0FFF) : t.i ≤ 0x0FFF := by
  obtain ht | ⟨nnn, -, ht⟩ | ⟨x, -, ht⟩ | ⟨x, -, ht⟩ := exec_i_cases h <;> rw [ht]
  · exact hs
  · exact zextAddr_le nnn
  · exact s.indexSum_le x
  · exact s.glyphAddress_le x

theorem exec_sp_le (h : exec i s = .next t) (hs : s.sp ≤ 16) : t.sp ≤ 16 := by
  obtain ht | ⟨-, h0, ht⟩ | ⟨nnn, -, hroom, ht⟩ := exec_sp_cases h <;> rw [ht]
  · exact hs
  · bv_omega
  · bv_omega

theorem exec_mem_wf (h : exec i s = .next t) (hs : s.mem.wf = true) : t.mem.wf = true := by
  obtain ht | ⟨x, -, ht⟩ | ⟨x, -, ht⟩ := exec_mem_cases h <;> rw [ht]
  · exact hs
  · exact s.writeBytes_wf _ _ hs
  · exact s.writeBytes_wf _ _ hs

theorem exec_inv (h : exec i s = .next t) (hs : s.Inv) : t.Inv := by
  obtain ⟨hi, hsp, hm⟩ := hs
  exact ⟨exec_i_le h hi, exec_sp_le h hsp, exec_mem_wf h hm⟩

/-- One Step keeps legal values: it changes nothing, latches a fault, or runs an instruction (R43). -/
theorem instrStep_inv (h : instrStep s = .next t) (hs : s.Inv) : t.Inv := by
  obtain ⟨-, rfl⟩ | ⟨-, -, rfl⟩ | ⟨-, i, -, hi⟩ := instrStep_cases h
  · exact hs
  · simpa only [State.Inv, State.takeFault_i, State.takeFault_sp, State.takeFault_mem] using hs
  · exact exec_inv hi hs

theorem State.betweenSteps_inv (hs : s.Inv) : s.betweenSteps.Inv := by
  simpa only [State.Inv, State.betweenSteps_i, State.betweenSteps_sp, State.betweenSteps_mem] using hs

/-- Settles O48: the Step keeps legal values, and so does what lies between two Steps. -/
theorem stepKeepsLegalValues : Obligations.StepKeepsLegalValues := by
  unfold Obligations.StepKeepsLegalValues
  intro s t hs h
  obtain ⟨u, hu, rfl⟩ := step_eq_next.1 h
  exact State.betweenSteps_inv (instrStep_inv hu hs)

/-- Settles O49: every conjunct is a closed fact about the reset values of R16. -/
theorem resetHoldsLegalValues : Obligations.ResetHoldsLegalValues := by
  unfold Obligations.ResetHoldsLegalValues
  decide

end Sys2Proof.Machine
end

section
/-! SUPPORT. What an instruction can do to the general registers (R6, R7): its destinations, and VF for a flag. -/

namespace Sys2Proof.Machine

variable {s t : State} {i : Instr} {r : Reg}

theorem flag_eq_zero_or_one (c : Bool) : flag c = 0 ∨ flag c = 1 := by cases c <;> simp [flag]

theorem writeResult_reg_of_ne {x : Reg} {b : Byte} (h : writeResult x b s = .next t) (hr : (r == x) = false) :
    t.reg r = s.reg r := by
  cases h
  exact s.setReg_reg_of_ne x r b (by simpa using hr)

theorem writeResultFlag_reg_of_ne {x : Reg} {b f : Byte} (h : writeResultFlag x b f s = .next t)
    (hr : (r == x) = false) (hvf : r ≠ VF) : t.reg r = s.reg r := by
  cases h
  have hx : r ≠ x := by simpa using hr
  simp [State.setRegFlag_reg, hx, hvf]

theorem writeResultFlag_reg_vf {x : Reg} {b f : Byte} (h : writeResultFlag x b f s = .next t) : t.reg VF = f := by
  cases h
  exact s.setRegFlag_reg_vf x b f

theorem exec_reg_of_not_written (h : exec i s = .next t) (hr : i.hasDestination r = false)
    (hf : r ≠ VF ∨ i.writesFlag = false) : t.reg r = s.reg r := by
  cases i
  case ldImm | addImm | ldReg | orReg | andReg | xorReg | rnd | ldVxDt => exact writeResult_reg_of_ne h hr
  case addReg | sub | subn | shr | shl => exact writeResultFlag_reg_of_ne h hr (hf.resolve_right nofun)
  case drw => cases h; exact State.setReg_reg_of_ne _ VF r _ (hf.resolve_right nofun)
  case ldVxK x =>
    obtain ⟨-, rfl⟩ | ⟨-, rfl⟩ := execLdVxK_cases h
    · rfl
    · exact s.setReg_reg_of_ne x r _ (by simpa [Instr.hasDestination] using hr)
  case ldVxMem x =>
    cases h
    have hx : ¬ r ≤ x := by simpa [Instr.hasDestination] using hr
    simp [hx]
  case ret => obtain ⟨-, rfl⟩ | ⟨-, a, -, rfl⟩ := execRet_cases h <;> rfl
  case call => obtain ⟨-, rfl⟩ | ⟨-, -, rfl⟩ := execCall_cases h <;> rfl
  case ldB | ldMemVx => cases h; exact State.writeBytes_reg ..
  all_goals cases h; rfl

theorem exec_vf_of_writesFlag (h : exec i s = .next t) (hf : i.writesFlag = true) : ∃ c, t.reg VF = flag c := by
  cases i
  case addReg | sub | subn | shr | shl => exact ⟨_, writeResultFlag_reg_vf h⟩
  case drw => cases h; exact ⟨_, State.setReg_reg_self ..⟩
  all_goals cases hf

/-- Settles O52: a register that is neither a destination nor a flag is kept, and what a flag-writing instruction leaves
in VF is a flag. -/
theorem onlyDestinationsAndFlagsChange : Obligations.OnlyDestinationsAndFlagsChange := by
  unfold Obligations.OnlyDestinationsAndFlagsChange
  intro i s t h
  refine ⟨fun r => exec_reg_of_not_written h, fun hf => ?_⟩
  obtain ⟨c, hc⟩ := exec_vf_of_writesFlag h hf
  rw [hc]
  exact flag_eq_zero_or_one c

end Sys2Proof.Machine
end


section
/-! SUPPORT. RET and CALL, an equation for each range of `SP` (R51, R53, log entry 5). -/

namespace Sys2Proof.Machine

variable {s : State}

/-- Above 16 there is no slot (R10). -/
theorem State.slot_eq_none_of_gt {k : Nat} (h : 16 < k) : s.slot k = none := by
  have := mt (s.slot_isSome k).1 (by omega)
  simpa using this

theorem execRet_underflow (h : s.sp = 0) : execRet s = .next (s.takeFault .stackUnderflow) := if_pos h

theorem execRet_pop {a : Word} (h : s.sp ≠ 0) (ha : s.slot s.sp.toNat = some a) :
    execRet s = .next { s.jump a with sp := s.sp - 1 } := by
  rw [execRet, if_neg h, ha]

theorem execRet_noSlot (h : s.sp ≠ 0) (hn : s.slot s.sp.toNat = none) : execRet s = .fault .noSuchStackSlot := by
  rw [execRet, if_neg h, hn]

theorem execCall_overflow (nnn : Addr) (h : s.sp = 16) : execCall nnn s = .next (s.takeFault .stackOverflow) := if_pos h

theorem execCall_push (nnn : Addr) {a : Word} (h : s.sp ≠ 16) (ha : s.slot (s.sp.toNat + 1) = some a) :
    execCall nnn s =
      .next { (s.setSlot (s.sp.toNat + 1) s.pcNext).jump (zextAddr nnn) with sp := s.sp + 1 } := by
  have h : s.sp ≠ BitVec.ofNat 8 Config.stackDepth := h
  rw [execCall, if_neg h, ha]

theorem execCall_noSlot (nnn : Addr) (h : s.sp ≠ 16) (hn : s.slot (s.sp.toNat + 1) = none) :
    execCall nnn s = .fault .noSuchStackSlot := by
  have h : s.sp ≠ BitVec.ofNat 8 Config.stackDepth := h
  rw [execCall, if_neg h, hn]

/-- Settles O22: with `SP` above 16 neither `STACK[SP]` nor `STACK[SP + 1]` exists. -/
theorem retAndCallStopOutsideTheStack : Obligations.RetAndCallStopOutsideTheStack := by
  unfold Obligations.RetAndCallStopOutsideTheStack
  intro nnn s h
  have h0 : s.sp ≠ 0 := by bv_omega
  have h16 : s.sp ≠ 16 := by bv_omega
  exact ⟨execRet_noSlot h0 (State.slot_eq_none_of_gt h),
    execCall_noSlot nnn h16 (State.slot_eq_none_of_gt (Nat.lt_succ_of_lt h))⟩

end Sys2Proof.Machine
end

section
/-! SUPPORT. The key mask, the random byte and the sound timer: which instructions can tell one value from another (R15,
R11). -/

namespace Sys2Proof.Machine

/-- The state with the key mask, the random byte and the sound timer each replaced by a function of itself. A function
that is `id` leaves its field alone. -/
def State.mapInputs (s : State) (f : Word → Word) (g h : Byte → Byte) : State :=
  { s with keys := f s.keys, rand := g s.rand, st := h s.st }

variable (s : State) (f : Word → Word) (g h : Byte → Byte)

theorem State.mapInputs_writeBytes (a : Word) (bs : List Byte) :
    (s.mapInputs f g h).writeBytes a bs = (s.writeBytes a bs).mapInputs f g h := by
  induction bs generalizing s a with
  | nil => rfl
  | cons b bs ih => exact ih (s.writeByte a b) (a + 1)

theorem State.mapInputs_readBytes (a : Word) (n : Nat) : (s.mapInputs f g h).readBytes a n = s.readBytes a n := by
  induction n generalizing a with
  | zero => rfl
  | succ n ih => exact congrArg _ (ih (a + 1))

theorem execRet_mapInputs : execRet (s.mapInputs f g h) = andThen (execRet s) (·.mapInputs f g h) := by
  by_cases h0 : s.sp = 0
  · rw [execRet_underflow h0, execRet_underflow (s := s.mapInputs f g h) h0]; rfl
  · cases hs : s.slot s.sp.toNat with
    | none => rw [execRet_noSlot h0 hs, execRet_noSlot (s := s.mapInputs f g h) h0 hs]; rfl
    | some a => rw [execRet_pop h0 hs, execRet_pop (s := s.mapInputs f g h) h0 hs]; rfl

theorem execCall_mapInputs (nnn : Addr) :
    execCall nnn (s.mapInputs f g h) = andThen (execCall nnn s) (·.mapInputs f g h) := by
  by_cases h0 : s.sp = 16
  · rw [execCall_overflow nnn h0, execCall_overflow (s := s.mapInputs f g h) nnn h0]; rfl
  · cases hs : s.slot (s.sp.toNat + 1) with
    | none => rw [execCall_noSlot nnn h0 hs, execCall_noSlot (s := s.mapInputs f g h) nnn h0 hs]; rfl
    | some a => rw [execCall_push nnn h0 hs, execCall_push (s := s.mapInputs f g h) nnn h0 hs]; rfl

theorem execDrw_mapInputs (x y : Reg) (n : Nibble) :
    execDrw x y n (s.mapInputs f g h) = andThen (execDrw x y n s) (·.mapInputs f g h) := by
  have hrows : (s.mapInputs f g h).readBytes (s.mapInputs f g h).i n.toNat = s.readBytes s.i n.toNat :=
    s.mapInputs_readBytes ..
  simp only [execDrw, hrows]
  rfl

theorem execLdB_mapInputs (x : Reg) :
    execLdB x (s.mapInputs f g h) = andThen (execLdB x s) (·.mapInputs f g h) :=
  congrArg (fun u : State => Host.Outcome.next u.advance) (s.mapInputs_writeBytes f g h ..)

theorem execLdMemVx_mapInputs (x : Reg) :
    execLdMemVx x (s.mapInputs f g h) = andThen (execLdMemVx x s) (·.mapInputs f g h) :=
  congrArg (fun u : State => Host.Outcome.next u.advance) (s.mapInputs_writeBytes f g h ..)

/-- LD Vx,K reads the key mask, so only the other two fields may be replaced. -/
theorem execLdVxK_mapInputs (x : Reg) :
    execLdVxK x (s.mapInputs id g h) = andThen (execLdVxK x s) (·.mapInputs id g h) := by
  have hkeys : (s.mapInputs id g h).keys = s.keys := rfl
  simp only [execLdVxK, hkeys]
  split <;> rfl

/-- An instruction commutes with replacing each of the three fields that it neither reads nor writes. -/
theorem exec_mapInputs (i : Instr) (hf : f = id ∨ ∀ x, i ≠ .skp x ∧ i ≠ .sknp x ∧ i ≠ .ldVxK x)
    (hg : g = id ∨ ∀ x kk, i ≠ .rnd x kk) (hh : h = id ∨ ∀ x, i ≠ .ldStVx x) :
    exec i (s.mapInputs f g h) = andThen (exec i s) (·.mapInputs f g h) := by
  cases i
  case ret => exact execRet_mapInputs ..
  case call => exact execCall_mapInputs ..
  case drw => exact execDrw_mapInputs ..
  case ldB => exact execLdB_mapInputs ..
  case ldMemVx => exact execLdMemVx_mapInputs ..
  case ldVxK x => rw [hf.resolve_right fun hx => (hx x).2.2 rfl]; exact execLdVxK_mapInputs ..
  case skp x => rw [hf.resolve_right fun hx => (hx x).1 rfl]; rfl
  case sknp x => rw [hf.resolve_right fun hx => (hx x).2.1 rfl]; rfl
  case rnd x kk => rw [hg.resolve_right fun hx => hx x kk rfl]; rfl
  case ldStVx x => rw [hh.resolve_right fun hx => hx x rfl]; rfl
  all_goals rfl

/-- Settles O54: each clause replaces one of the three fields by a constant and leaves the other two. -/
theorem inputsAndSoundTimerAreNotSeen : Obligations.InputsAndSoundTimerAreNotSeen := by
  unfold Obligations.InputsAndSoundTimerAreNotSeen
  exact fun i s => ⟨fun hk k => exec_mapInputs s (fun _ => k) id id i (.inr hk) (.inl rfl) (.inl rfl),
    fun hr b => exec_mapInputs s id (fun _ => b) id i (.inl rfl) (.inr hr) (.inl rfl),
    fun ht b => exec_mapInputs s id id (fun _ => b) i (.inl rfl) (.inl rfl) (.inr ht)⟩

end Sys2Proof.Machine
end

section
/-! SUPPORT. A canonical memory list is fixed by what it reads (log entry 9), and the state after Reset (R16, R19). -/

namespace Sys2Proof.Machine

/-! ### The canonical form -/

theorem Memory.wf_iff {m : Memory} :
    m.wf = true ↔ Memory.risingFrom 0 m = true ∧ ∀ c ∈ m, c.1 < Config.memSize ∧ c.2 ≠ Config.resetByte c.1 := by
  simp [Memory.wf]

theorem Memory.risingFrom_cons {low : Nat} {c : Host.Cell} {m : Memory} :
    Memory.risingFrom low (c :: m) = true ↔ low ≤ c.1 ∧ Memory.risingFrom (c.1 + 1) m = true := by
  simp [Memory.risingFrom]

theorem Memory.le_of_risingFrom {m : Memory} {low : Nat} (hm : Memory.risingFrom low m = true) :
    ∀ c ∈ m, low ≤ c.1 := by
  induction m generalizing low with
  | nil => nofun
  | cons d m ih =>
    obtain ⟨hd, hm⟩ := Memory.risingFrom_cons.1 hm
    intro c hc
    rcases List.mem_cons.1 hc with rfl | hc
    · exact hd
    · have := ih hm c hc
      omega

theorem Memory.pairwise_of_risingFrom {m : Memory} {low : Nat} (hm : Memory.risingFrom low m = true) :
    m.Pairwise fun c d => c.1 < d.1 := by
  induction m generalizing low with
  | nil => exact .nil
  | cons c m ih =>
    obtain ⟨-, hm⟩ := Memory.risingFrom_cons.1 hm
    exact .cons (Memory.le_of_risingFrom hm) (ih hm)

/-- Where the addresses rise, no cell hides a later one. -/
theorem Memory.read_of_mem {m : Memory} {low : Nat} (hm : Memory.risingFrom low m = true) {c : Host.Cell} (hc : c ∈ m) :
    m.read c.1 = c.2 := by
  induction m generalizing low with
  | nil => cases hc
  | cons d m ih =>
    obtain ⟨-, hm⟩ := Memory.risingFrom_cons.1 hm
    rcases List.mem_cons.1 hc with rfl | hc
    · exact if_pos rfl
    · have hd : d.1 ≠ c.1 := Nat.ne_of_lt (Memory.le_of_risingFrom hm c hc)
      rw [Memory.read, if_neg hd, ih hm hc]

/-- The cells of a canonical list are those that read differently from the reset contents. -/
theorem Memory.mem_iff_read {m : Memory} (hm : m.wf = true) (c : Host.Cell) :
    c ∈ m ↔ m.read c.1 = c.2 ∧ c.2 ≠ Config.resetByte c.1 := by
  obtain ⟨hrise, hcells⟩ := Memory.wf_iff.1 hm
  refine ⟨fun hc => ⟨Memory.read_of_mem hrise hc, (hcells c hc).2⟩, fun ⟨hread, hne⟩ => ?_⟩
  by_cases hlisted : ∃ d ∈ m, d.1 = c.1
  · obtain ⟨d, hd, hdc⟩ := hlisted
    have : d.2 = c.2 := by rw [← Memory.read_of_mem hrise hd, hdc, hread]
    exact Prod.ext hdc this ▸ hd
  · have hreset := Memory.read_of_not_listed m c.1 fun d hd hdc => hlisted ⟨d, hd, hdc⟩
    exact absurd (hread.symm.trans hreset) hne

theorem Memory.eq_of_read_eq {m m' : Memory} (hm : m.wf = true) (hm' : m'.wf = true)
    (hread : ∀ a, m.read a = m'.read a) : m = m' := by
  have hmem : ∀ c, c ∈ m ↔ c ∈ m' := fun c => by rw [Memory.mem_iff_read hm, Memory.mem_iff_read hm', hread]
  have hrise := Memory.pairwise_of_risingFrom (Memory.wf_iff.1 hm).1
  have hrise' := Memory.pairwise_of_risingFrom (Memory.wf_iff.1 hm').1
  have : Std.Antisymm fun c d : Host.Cell => c.1 < d.1 := ⟨fun _ _ h h' => absurd h (Nat.lt_asymm h')⟩
  have : Std.Irrefl fun c d : Host.Cell => c.1 < d.1 := ⟨fun c => Nat.lt_irrefl c.1⟩
  exact hrise.eq_of_mem_iff hrise' hmem

/-- Settles O59: a canonical list has the cells that its reads give it, in rising order. -/
theorem canonicalMemoryIsUnique : Obligations.CanonicalMemoryIsUnique := by
  unfold Obligations.CanonicalMemoryIsUnique
  exact ⟨fun _ _ => Memory.eq_of_read_eq, rfl⟩

/-! ### The state after Reset -/

@[simp] theorem State.reset_reg (r : Reg) : State.reset.reg r = 0 := by simp [State.reg, State.reset]

theorem State.reset_slot {k : Nat} (h1 : 1 ≤ k) (h16 : k ≤ 16) : State.reset.slot k = some 0 := by
  have h0 : k ≠ 0 := by omega
  have hk : k - 1 < 16 := by omega
  simp [State.slot, State.reset, h0, hk]

@[simp] theorem State.reset_cell (px py : Nat) : State.reset.cell px py = false := by simp [State.cell, State.reset]

@[simp] theorem State.reset_read (a : Nat) : State.reset.mem.read a = Config.resetByte a := rfl

/-- The font ends at address 79 (R19). -/
theorem resetByte_of_ge {a : Nat} (h : 80 ≤ a) : Config.resetByte a = 0 :=
  List.getD_eq_default _ _ h

theorem map_resetByte_range : (List.range 80).map Config.resetByte = Config.font := by decide

/-- With no program the word at 0x200 is 0x0000, which is invalid (R104). -/
theorem decodeWord_reset_fetchWord : decodeWord State.reset.fetchWord = none := by decide

/-- Settles O56: row by row of R16, with the font of R19 and the first Step of R104. -/
theorem resetStateIsAsTabulated : Obligations.ResetStateIsAsTabulated := by
  unfold Obligations.ResetStateIsAsTabulated
  exact ⟨rfl, State.reset_reg, rfl, rfl, fun _ => State.reset_slot, rfl, rfl,
    fun px _ py _ => State.reset_cell px py, rfl, rfl, fun _ => resetByte_of_ge, map_resetByte_range,
    instrStep_invalid rfl decodeWord_reset_fetchWord⟩

end Sys2Proof.Machine
end

section
/-! SUPPORT. Memory and the stack (R18, R21, R23, R29): who writes them, what LoadProgram leaves in memory, and how a fetch
reads what LD [I],Vx stored. -/

namespace Sys2Proof.Machine

variable {s t : State} {i : Instr}

/-! ### Who writes memory and the stack -/

/-- Only CALL writes a stack slot, the one above `SP`, where there is room (R53). -/
theorem exec_stack_cases (h : exec i s = .next t) :
    t.stack = s.stack ∨ (∃ nnn, i = .call nnn ∧ s.sp.toNat + 1 ≤ 16 ∧
      t.stack = (s.setSlot (s.sp.toNat + 1) s.pcNext).stack) := by
  cases i
  case call nnn =>
    obtain ⟨-, rfl⟩ | ⟨-, hroom, rfl⟩ := execCall_cases h
    · exact .inl rfl
    · exact .inr ⟨nnn, rfl, hroom, rfl⟩
  all_goals left
  case ret => obtain ⟨-, rfl⟩ | ⟨-, a, -, rfl⟩ := execRet_cases h <;> rfl
  case ldVxK => obtain ⟨-, rfl⟩ | ⟨-, rfl⟩ := execLdVxK_cases h <;> rfl
  case ldB | ldMemVx => cases h; exact State.writeBytes_stack ..
  all_goals cases h; rfl

theorem exec_eq_store_of_read_ne (h : exec i s = .next t) {a : Nat} (ha : t.mem.read a ≠ s.mem.read a) :
    ∃ x, i = .ldB x ∨ i = .ldMemVx x := by
  obtain hm | ⟨x, hi, -⟩ | ⟨x, hi, -⟩ := exec_mem_cases h
  · exact absurd (by rw [hm]) ha
  · exact ⟨x, .inl hi⟩
  · exact ⟨x, .inr hi⟩

theorem exec_eq_call_of_slot_ne (h : exec i s = .next t) {k : Nat} (hk : t.slot k ≠ s.slot k) :
    ∃ nnn, i = .call nnn := by
  obtain hstack | ⟨nnn, hi, -⟩ := exec_stack_cases h
  · exact absurd (by rw [State.slot, State.slot, hstack]) hk
  · exact ⟨nnn, hi⟩

theorem exec_eq_ret_or_call_of_sp_ne (h : exec i s = .next t) (hsp : t.sp ≠ s.sp) :
    i = .ret ∨ ∃ nnn, i = .call nnn := by
  obtain heq | ⟨hi, -⟩ | ⟨nnn, hi, -⟩ := exec_sp_cases h
  · exact absurd heq hsp
  · exact .inl hi
  · exact .inr ⟨nnn, hi⟩

/-- Settles O53: each clause reads off which instructions the case lemma of its field leaves. -/
theorem onlyStoresAndCallsWriteMemoryAndStack : Obligations.OnlyStoresAndCallsWriteMemoryAndStack := by
  unfold Obligations.OnlyStoresAndCallsWriteMemoryAndStack
  intro i s t h
  exact ⟨fun ⟨_, ha⟩ => exec_eq_store_of_read_ne h ha, fun ⟨_, hk⟩ => exec_eq_call_of_slot_ne h hk,
    exec_eq_ret_or_call_of_sp_ne h⟩

/-! ### LoadProgram -/

theorem State.loadProgram_halted (bytes : List Byte) (h : s.err ≠ .none) : s.loadProgram bytes = s := if_pos h

theorem State.loadProgram_tooLarge {bytes : List Byte} (h : s.Running) (hb : 3584 < bytes.length) :
    s.loadProgram bytes = s.takeFault .programTooLarge := by
  rw [State.loadProgram, if_neg (not_not.2 h)]
  exact if_pos hb

theorem State.loadProgram_fits {bytes : List Byte} (h : s.Running) (hb : bytes.length ≤ 3584) :
    s.loadProgram bytes = { s with mem := s.mem.load 0x200 bytes } := by
  rw [State.loadProgram, if_neg (not_not.2 h)]
  exact if_neg (Nat.not_lt.2 hb)

theorem frame_setMem (s : State) (m : Memory) : Frame s { s with mem := m } [] [.memory] := by
  refine ⟨fun _ _ => rfl, fun p hp => ?_⟩
  cases p
  case memory => exact absurd (List.mem_singleton.2 rfl) hp
  case stackSlots => exact fun _ => rfl
  case screen => exact ⟨rfl, rfl⟩
  case inputs => exact ⟨rfl, rfl, rfl⟩
  all_goals rfl

/-- Settles O55: one clause for each branch of LoadProgram. -/
theorem loadProgramCopiesOrFaults : Obligations.LoadProgramCopiesOrFaults := by
  unfold Obligations.LoadProgramCopiesOrFaults
  refine fun bytes s => ⟨fun h hb => ?_, State.loadProgram_tooLarge, State.loadProgram_halted bytes⟩
  rw [State.loadProgram_fits h hb]
  exact ⟨Memory.load_read_inside bytes s.mem 0x200, Memory.load_read_outside bytes s.mem 0x200, rfl, frame_setMem s _⟩

/-! ### A fetch after a store -/

/-- The fetched word is big-endian, and each byte's address is reduced on its own (R44, R20, R21). -/
theorem State.fetchWord_toNat (s : State) : s.fetchWord.toNat =
    (s.mem.read (s.pc.toNat % 4096)).toNat * 256 + (s.mem.read ((s.pc.toNat + 1) % 4096)).toNat := by
  rw [← port_add s.pc 1, ← port_eq]
  exact append_toNat ..

theorem State.regsUpTo_length (s : State) (x : Reg) : (s.regsUpTo x).length = x.val + 1 := by
  rw [State.regsUpTo, List.length_take, Vector.length_toList]
  omega

theorem State.regsUpTo_getElem (s : State) (x r : Reg) (h : r.val < (s.regsUpTo x).length) :
    (s.regsUpTo x)[r.val] = s.reg r := by
  simp [State.regsUpTo, State.reg]

/-- What LD [I],Vx leaves at the place of each register it stores (R75). -/
theorem State.writeBytes_regsUpTo_read (s : State) {x r : Reg} (h : r ≤ x) :
    (s.writeBytes s.i (s.regsUpTo x)).mem.read ((s.i.toNat + r.val) % 4096) = s.reg r := by
  have hlen := s.regsUpTo_length x
  have hr : r.val < (s.regsUpTo x).length := hlen ▸ Nat.lt_succ_of_le h
  rw [s.writeBytes_read_inside s.i _ (by omega) r.val hr, s.regsUpTo_getElem]

/-- Settles O58: both bytes of the fetch are stored ones, since `k + 1` is still at most `x`. -/
theorem storesAreSeenByTheNextFetch : Obligations.StoresAreSeenByTheNextFetch := by
  unfold Obligations.StoresAreSeenByTheNextFetch
  intro x k s u hk
  refine ⟨_, rfl, fun hmem hpc => ?_⟩
  have hmem : u.mem = (s.writeBytes s.i (s.regsUpTo x)).mem := hmem
  have hnext : (k + 1).val = k.val + 1 := Fin.val_add_one_of_lt (hk.trans_le (Fin.le_last x))
  have hle : k + 1 ≤ x := by rw [Fin.le_def, hnext]; exact hk
  have hpcNext : (u.pc.toNat + 1) % 4096 = (s.i.toNat + (k + 1).val) % 4096 := by omega
  rw [u.fetchWord_toNat, hmem, hpc, hpcNext, s.writeBytes_regsUpTo_read hk.le, s.writeBytes_regsUpTo_read hle]

end Sys2Proof.Machine
end

section
/-! SUPPORT. The fields the decoder takes from a word, as numbers, and the word put together again from them (R32). -/

namespace Sys2Proof

variable (op : Word)

/-! ### Each field as a number -/

theorem decodeFields_top_toNat : (decodeFields op).top.toNat = op.toNat / 4096 := by
  have := op.isLt
  rw [decodeFields, extract_toNat]
  omega

theorem decodeFields_nnn_toNat : (decodeFields op).nnn.toNat = op.toNat % 4096 := by
  simp [decodeFields]

theorem decodeFields_x_toNat : (decodeFields op).x.toNat = op.toNat / 256 % 16 := extract_toNat ..

theorem decodeFields_y_toNat : (decodeFields op).y.toNat = op.toNat / 16 % 16 := extract_toNat ..

theorem decodeFields_n_toNat : (decodeFields op).n.toNat = op.toNat % 16 := by
  simp [decodeFields]

theorem decodeFields_kk_toNat : (decodeFields op).kk.toNat = op.toNat % 256 := by
  simp [decodeFields]

/-! ### The overlaps, and the word as the sum of its fields -/

theorem decodeFields_nnn_eq_x_kk :
    (decodeFields op).nnn.toNat = (decodeFields op).x.toNat * 256 + (decodeFields op).kk.toNat := by
  rw [decodeFields_nnn_toNat, decodeFields_x_toNat, decodeFields_kk_toNat]
  omega

theorem decodeFields_kk_eq_y_n :
    (decodeFields op).kk.toNat = (decodeFields op).y.toNat * 16 + (decodeFields op).n.toNat := by
  rw [decodeFields_kk_toNat, decodeFields_y_toNat, decodeFields_n_toNat]
  omega

theorem word_toNat_eq_fields : op.toNat = (decodeFields op).top.toNat * 4096 + (decodeFields op).x.toNat * 256 +
    (decodeFields op).y.toNat * 16 + (decodeFields op).n.toNat := by
  rw [decodeFields_top_toNat, decodeFields_x_toNat, decodeFields_y_toNat, decodeFields_n_toNat]
  omega

theorem decodeFields_wellFormed : (decodeFields op).wellFormed = true := by
  have hnnn : (decodeFields op).nnn = (decodeFields op).x ++ (decodeFields op).kk := by
    apply BitVec.eq_of_toNat_eq
    exact (decodeFields_nnn_eq_x_kk op).trans (append_toNat (decodeFields op).x (decodeFields op).kk).symm
  have hkk : (decodeFields op).kk = (decodeFields op).y ++ (decodeFields op).n := by
    apply BitVec.eq_of_toNat_eq
    exact (decodeFields_kk_eq_y_n op).trans (append_toNat (decodeFields op).y (decodeFields op).n).symm
  rw [Fields.wellFormed, Bool.and_eq_true, beq_iff_eq, beq_iff_eq]
  exact ⟨hnnn, hkk⟩

/-- Settles O1: one lemma for each field and each overlap. -/
theorem decoderExtractsTheFields : Obligations.DecoderExtractsTheFields := by
  unfold Obligations.DecoderExtractsTheFields
  exact ⟨fun op => ⟨decodeFields_nnn_toNat op, decodeFields_n_toNat op, decodeFields_x_toNat op,
    decodeFields_y_toNat op, decodeFields_kk_toNat op, decodeFields_top_toNat op, decodeFields_nnn_eq_x_kk op,
    decodeFields_kk_eq_y_n op, word_toNat_eq_fields op, decodeFields_wellFormed op⟩, rfl⟩

/-! ### A word is each format's word of its own fields (R34) -/

theorem wordNNN_decodeFields : wordNNN (decodeFields op).top (decodeFields op).nnn = op := by
  apply BitVec.eq_of_toNat_eq
  rw [wordNNN_toNat, decodeFields_top_toNat, decodeFields_nnn_toNat]
  omega

theorem wordXKK_decodeFields :
    wordXKK (decodeFields op).top (decodeFields op).rx (decodeFields op).kk = op := by
  apply BitVec.eq_of_toNat_eq
  rw [wordXKK_toNat, Fields.rx, nibbleReg_val, decodeFields_top_toNat, decodeFields_x_toNat, decodeFields_kk_toNat]
  omega

theorem wordXYN_decodeFields :
    wordXYN (decodeFields op).top (decodeFields op).rx (decodeFields op).ry (decodeFields op).n = op := by
  apply BitVec.eq_of_toNat_eq
  rw [wordXYN_toNat, Fields.rx, Fields.ry, nibbleReg_val, nibbleReg_val, ← word_toNat_eq_fields]

end Sys2Proof
end

section
/-! SUPPORT. The canonical word of an instruction, by format: as a number, under its row's mask, and decoded (R34, R36). -/

namespace Sys2Proof

/-- The decoder's fields of a canonical word are the operands, and the dispatch reads only those. -/
theorem decodeWord_encode (i : Instr) : decodeWord (encode i) = some i := by
  rw [decodeWord]
  cases i
  case cls | ret => rfl
  case jp | call | ldI | jpV0 => simp [encode, dispatch, decodeFields_wordNNN]
  case seReg | sneReg | ldReg | orReg | andReg | xorReg | addReg | sub | subn | shr | shl | drw =>
    simp [encode, dispatch, dispatchFamily8, decodeFields_wordXYN]
  all_goals simp [encode, dispatch, dispatchFamilyE, dispatchFamilyF, decodeFields_wordXKK]

theorem bigEndian_extract (op : Word) : bigEndian (op.extractLsb' 8 8) (op.extractLsb' 0 8) = op := by
  apply BitVec.eq_of_toNat_eq
  have : op.toNat < 65536 := op.isLt
  rw [bigEndian, append_toNat, extract_toNat, extract_toNat]
  omega

theorem decode_encodeBytes_append (i : Instr) (rest : List Byte) : decode (encodeBytes i ++ rest) = .ok (i, rest) := by
  simp [encodeBytes, decode, bigEndian_extract, decodeWord_encode]

/-- Settles O5: by format for the word, and the two bytes make up the word. -/
theorem decodeInvertsEncode : Obligations.DecodeInvertsEncode := by
  unfold Obligations.DecodeInvertsEncode
  exact fun i rest => ⟨decodeWord_encode i, decode_encodeBytes_append i rest⟩

theorem encode_toNat (i : Instr) : (encode i).toNat = (rowOf i).1.toNat + i.operandSum := by
  cases i
  case cls | ret => rfl
  case jp | call | ldI | jpV0 => exact wordNNN_toNat ..
  case seReg | sneReg | ldReg | orReg | andReg | xorReg | addReg | sub | subn | shr | shl | drw =>
    simp only [encode, wordXYN_toNat, rowOf, Instr.operandSum]
    bv_omega
  all_goals
    simp only [encode, wordXKK_toNat, rowOf, Instr.operandSum]
    bv_omega

/-- Settles O4: the sum by format, the worked words by evaluation. -/
theorem encodeIsMatchPlusOperands : Obligations.EncodeIsMatchPlusOperands := by
  unfold Obligations.EncodeIsMatchPlusOperands
  exact ⟨encode_toNat, by decide⟩

/-- A canonical word selects its instruction's own row (R36, R38). -/
theorem encode_and_mask (i : Instr) : encode i &&& (rowOf i).2 = (rowOf i).1 := by
  cases i
  case cls | ret => rfl
  case jp | call | ldI | jpV0 => exact Laws.EncodeRow.maskNNN ..
  case seImm | sneImm | ldImm | addImm | rnd => exact Laws.EncodeRow.maskXKK ..
  case seReg | sneReg | drw => exact Laws.EncodeRow.maskXYN ..
  case ldReg | orReg | andReg | xorReg | addReg | sub | subn | shr | shl => exact Laws.EncodeRow.maskXY ..
  all_goals exact Laws.EncodeRow.maskX ..

end Sys2Proof
end

section
/-! SUPPORT. Encoding what a word decodes to (R36, R40): by format, what the word's used bits are once its top nibble and
its sub-opcode are known. -/

namespace Sys2Proof

variable {op : Word} {i : Instr}

/-! ### Ignored bits -/

theorem word_and_ones (op : Word) : op &&& 0xFFFF = op := BitVec.and_allOnes

theorem wordXYN_without_n (top : Nibble) (x y : Reg) (n : Nibble) :
    wordXYN top x y n &&& 0xFFF0 = wordXYN top x y 0 := by
  have h : wordXYN top x y n &&& (BitVec.allOnes 4 ++ BitVec.allOnes 4 ++ BitVec.allOnes 4 ++ (0 : Nibble)) =
      wordXYN top x y 0 := by
    rw [wordXYN, BitVec.and_append, BitVec.and_append, BitVec.and_append]
    simp only [wordXYN, BitVec.ofNat_eq_ofNat, BitVec.and_allOnes, BitVec.and_zero]
  exact h

theorem wordXYN_without_y (top : Nibble) (x y : Reg) (n : Nibble) :
    wordXYN top x y n &&& 0xFF0F = wordXYN top x 0 n := by
  have h : wordXYN top x y n &&& (BitVec.allOnes 4 ++ BitVec.allOnes 4 ++ regNibble 0 ++ BitVec.allOnes 4) =
      wordXYN top x 0 n := by
    have hzero : regNibble y &&& regNibble 0 = regNibble 0 := BitVec.and_zero
    rw [wordXYN, BitVec.and_append, BitVec.and_append, BitVec.and_append, hzero]
    simp only [wordXYN, BitVec.and_allOnes]
  exact h

section

variable {top n : Nibble} {kk : Byte} (htop : (decodeFields op).top = top)
include htop

theorem wordNNN_eq_used : wordNNN top (decodeFields op).nnn = op &&& 0xFFFF := by
  rw [← htop, wordNNN_decodeFields, word_and_ones]

theorem wordXKK_eq_used (hkk : (decodeFields op).kk = kk) : wordXKK top (decodeFields op).rx kk = op &&& 0xFFFF := by
  rw [← htop, ← hkk, wordXKK_decodeFields, word_and_ones]

theorem wordXYN_eq_used (hn : (decodeFields op).n = n) :
    wordXYN top (decodeFields op).rx (decodeFields op).ry n = op &&& 0xFFFF := by
  rw [← htop, ← hn, wordXYN_decodeFields, word_and_ones]

/-- SE and SNE of two registers ignore bits 3:0. -/
theorem wordXY0_eq_used : wordXYN top (decodeFields op).rx (decodeFields op).ry 0 = op &&& 0xFFF0 := by
  rw [← htop, ← wordXYN_without_n _ _ _ (decodeFields op).n, wordXYN_decodeFields]

/-- The shifts ignore bits 7:4. -/
theorem wordX0N_eq_used (hn : (decodeFields op).n = n) : wordXYN top (decodeFields op).rx 0 n = op &&& 0xFF0F := by
  rw [← htop, ← hn, ← wordXYN_without_y _ _ (decodeFields op).ry, wordXYN_decodeFields]

/-- CLS and RET ignore bits 11:8. -/
theorem word0KK_eq_used (hkk : (decodeFields op).kk = kk) : top ++ (0 : Nibble) ++ kk = op &&& 0xF0FF := by
  rw [← htop, ← hkk, ← Laws.EncodeRow.maskX _ (decodeFields op).rx, wordXKK_decodeFields]

end

/-! ### Family by family -/

theorem encode_of_dispatchFamily0 (htop : (decodeFields op).top = 0x0)
    (h : dispatchFamily0 (decodeFields op) = some i) : encode i = op &&& i.usedBits := by
  unfold dispatchFamily0 at h
  split at h <;> cases h
  all_goals exact word0KK_eq_used htop ‹_›

theorem encode_of_dispatchFamily8 (htop : (decodeFields op).top = 0x8)
    (h : dispatchFamily8 (decodeFields op) = some i) : encode i = op &&& i.usedBits := by
  unfold dispatchFamily8 at h
  split at h <;> cases h
  case h_7 hn | h_9 hn => exact wordX0N_eq_used htop hn
  all_goals exact wordXYN_eq_used htop ‹_›

theorem encode_of_dispatchFamilyE (htop : (decodeFields op).top = 0xE)
    (h : dispatchFamilyE (decodeFields op) = some i) : encode i = op &&& i.usedBits := by
  unfold dispatchFamilyE at h
  split at h <;> cases h
  all_goals exact wordXKK_eq_used htop ‹_›

theorem encode_of_dispatchFamilyF (htop : (decodeFields op).top = 0xF)
    (h : dispatchFamilyF (decodeFields op) = some i) : encode i = op &&& i.usedBits := by
  unfold dispatchFamilyF at h
  split at h <;> cases h
  all_goals exact wordXKK_eq_used htop ‹_›

theorem encode_of_decodeWord (h : decodeWord op = some i) : encode i = op &&& i.usedBits := by
  rw [decodeWord] at h
  unfold dispatch at h
  split at h
  case h_1 htop => exact encode_of_dispatchFamily0 htop h
  case h_9 htop => exact encode_of_dispatchFamily8 htop h
  case h_15 htop => exact encode_of_dispatchFamilyE htop h
  case h_16 =>
    have htop : (decodeFields op).top = 0xF := by simp only [imp_false] at *; bv_omega
    exact encode_of_dispatchFamilyF htop h
  all_goals cases h
  case h_2 htop | h_3 htop | h_11 htop | h_12 htop => exact wordNNN_eq_used htop
  case h_6 htop | h_10 htop => exact wordXY0_eq_used htop
  case h_14 htop => exact wordXYN_eq_used htop rfl
  all_goals exact wordXKK_eq_used ‹_› rfl

/-- Settles O6: one argument for each set of ignored bits. -/
theorem encodeInvertsDecode : Obligations.EncodeInvertsDecode := by
  unfold Obligations.EncodeInvertsDecode
  exact fun _ _ => encode_of_decodeWord

end Sys2Proof
end

section
/-! SUPPORT. The opcode map against the dispatch (R35, R38): a row a word selects is what the word decodes to, and a word
that decodes selects a row. -/

namespace Sys2Proof

variable {op : Word} {i : Instr} {r r' : OpRow}

theorem OpRow.selects_iff : r.selects op = true ↔ op &&& r.mask = r.pattern := beq_iff_eq

/-! ### No two rows overlap -/

/-- Rows whose patterns differ on the bits both examine cannot select the same word. -/
theorem OpRow.not_selects_both (h : r.pattern &&& r'.mask ≠ r'.pattern &&& r.mask) (op : Word) :
    ¬ (r.selects op = true ∧ r'.selects op = true) := by
  rintro ⟨hr, hr'⟩
  rw [OpRow.selects_iff] at hr hr'
  refine h ?_
  rw [← hr, ← hr', BitVec.and_assoc, BitVec.and_assoc, BitVec.and_comm r.mask]

theorem opcodeMap_patterns_differ :
    opcodeMap.Pairwise fun r r' => r.pattern &&& r'.mask ≠ r'.pattern &&& r.mask := by decide

/-! ### A selected row is what the word decodes to -/

theorem extract_eq_of_and_eq {w low len : Nat} {op mask pattern : BitVec w} (h : op &&& mask = pattern)
    (hmask : mask.extractLsb' low len = BitVec.allOnes len) :
    op.extractLsb' low len = pattern.extractLsb' low len := by
  rw [← h, BitVec.extractLsb'_and, hmask, BitVec.and_allOnes]

/-- The fields with those that the row's mask examines replaced by the ones of its pattern. -/
def OpRow.pin (r : OpRow) (f : Fields) : Fields :=
  { f with
    top := (decodeFields r.pattern).top
    n := if (decodeFields r.mask).n = 0xF then (decodeFields r.pattern).n else f.n
    kk := if (decodeFields r.mask).kk = 0xFF then (decodeFields r.pattern).kk else f.kk }

theorem opcodeMap_mask_top : ∀ r ∈ opcodeMap, (decodeFields r.mask).top = 0xF := by decide

/-- A word that selects a row has the fields of the row's pattern already. -/
theorem OpRow.pin_decodeFields (hr : r ∈ opcodeMap) (h : r.selects op = true) :
    r.pin (decodeFields op) = decodeFields op := by
  rw [OpRow.selects_iff] at h
  have htop : (decodeFields op).top = (decodeFields r.pattern).top := extract_eq_of_and_eq h (opcodeMap_mask_top r hr)
  have hn (hmask : (decodeFields r.mask).n = 0xF) : (decodeFields r.pattern).n = (decodeFields op).n :=
    (extract_eq_of_and_eq h hmask).symm
  have hkk (hmask : (decodeFields r.mask).kk = 0xFF) : (decodeFields r.pattern).kk = (decodeFields op).kk :=
    (extract_eq_of_and_eq h hmask).symm
  simp only [OpRow.pin, ← htop, ite_eq_right_iff.2 hn, ite_eq_right_iff.2 hkk]

/-- The fields that a row's mask examines determine what the dispatch does. -/
theorem OpRow.dispatch_pin (hr : r ∈ opcodeMap) (f : Fields) : dispatch (r.pin f) = some (r.build f) := by
  fin_cases hr <;> rfl

theorem OpRow.decodeWord_of_selects (hr : r ∈ opcodeMap) (h : r.selects op = true) :
    decodeWord op = some (r.build (decodeFields op)) := by
  rw [decodeWord, ← OpRow.pin_decodeFields hr h, OpRow.dispatch_pin hr, OpRow.pin_decodeFields hr h]

/-! ### A word that decodes selects a row -/

theorem rowOf_mem_opcodeMap (i : Instr) : rowOf i ∈ opcodeMap.map fun r => (r.pattern, r.mask) := by
  cases i
  all_goals
    simp only [rowOf]
    decide

/-- A row examines no bit that its instruction ignores. -/
theorem usedBits_and_mask (i : Instr) : i.usedBits &&& (rowOf i).2 = (rowOf i).2 := by
  cases i
  all_goals
    simp only [Instr.usedBits, rowOf]
    decide

theorem exists_selects_of_decodeWord (h : decodeWord op = some i) : ∃ r ∈ opcodeMap, r.selects op = true := by
  obtain ⟨r, hr, hrow⟩ := List.mem_map.1 (rowOf_mem_opcodeMap i)
  have hpattern : r.pattern = (rowOf i).1 := congrArg Prod.fst hrow
  have hmask : r.mask = (rowOf i).2 := congrArg Prod.snd hrow
  refine ⟨r, hr, OpRow.selects_iff.2 ?_⟩
  calc op &&& r.mask = op &&& i.usedBits &&& (rowOf i).2 := by rw [hmask, BitVec.and_assoc, usedBits_and_mask]
    _ = encode i &&& (rowOf i).2 := by rw [encode_of_decodeWord h]
    _ = r.pattern := by rw [encode_and_mask, hpattern]

theorem decodeWord_eq_tableSelect (op : Word) : decodeWord op = tableSelect op := by
  rw [tableSelect]
  cases hfind : opcodeMap.find? fun r : OpRow => r.selects op with
  | some r =>
    have hsel : r.selects op = true := List.find?_some (p := fun r : OpRow => r.selects op) hfind
    exact OpRow.decodeWord_of_selects (List.mem_of_find?_eq_some hfind) hsel
  | none =>
    refine Option.eq_none_iff_forall_ne_some.2 fun i hi => ?_
    obtain ⟨r, hr, hsel⟩ := exists_selects_of_decodeWord hi
    exact List.find?_eq_none.1 hfind r hr hsel

/-- Settles O2: the first row found is sound, one is found for every word that decodes, and patterns differ pairwise. -/
theorem dispatchIsTheOpcodeMap : Obligations.DispatchIsTheOpcodeMap := by
  unfold Obligations.DispatchIsTheOpcodeMap
  exact ⟨decodeWord_eq_tableSelect, opcodeMap_patterns_differ.imp OpRow.not_selects_both⟩

end Sys2Proof
end

section
/-! SUPPORT. The invalid words (R39): where each secondary switch, and the dispatch, selects nothing. -/

namespace Sys2Proof

variable {f : Fields}

theorem dispatchFamily0_eq_none_iff : dispatchFamily0 f = none ↔ f.kk.toNat ∉ [0xE0, 0xEE] := by
  unfold dispatchFamily0
  split <;> simp_all [← BitVec.toNat_inj]

theorem dispatchFamily8_eq_none_iff :
    dispatchFamily8 f = none ↔ f.n.toNat ∈ [0x8, 0x9, 0xA, 0xB, 0xC, 0xD, 0xF] := by
  unfold dispatchFamily8
  split <;> simp_all [← BitVec.toNat_inj]
  omega

theorem dispatchFamilyE_eq_none_iff : dispatchFamilyE f = none ↔ f.kk.toNat ∉ [0x9E, 0xA1] := by
  unfold dispatchFamilyE
  split <;> simp_all [← BitVec.toNat_inj]

theorem dispatchFamilyF_eq_none_iff :
    dispatchFamilyF f = none ↔ f.kk.toNat ∉ [0x07, 0x0A, 0x15, 0x18, 0x1E, 0x29, 0x33, 0x55, 0x65] := by
  unfold dispatchFamilyF
  split <;> simp_all [← BitVec.toNat_inj]

/-- Only the four families with a secondary switch can select nothing. -/
theorem dispatch_eq_none_iff : dispatch f = none ↔
    (f.top.toNat = 0x0 ∧ dispatchFamily0 f = none) ∨ (f.top.toNat = 0x8 ∧ dispatchFamily8 f = none) ∨
    (f.top.toNat = 0xE ∧ dispatchFamilyE f = none) ∨ (f.top.toNat = 0xF ∧ dispatchFamilyF f = none) := by
  unfold dispatch
  split
  case h_16 =>
    have htop : f.top = 0xF := by simp only [imp_false] at *; bv_omega
    simp [htop]
  all_goals
    have htop : f.top = _ := ‹_›
    simp [htop]

/-- Settles O3: each family's secondary switch in turn, its key read as a number. -/
theorem invalidWordsAreExactlyTheListedOnes : Obligations.InvalidWordsAreExactlyTheListedOnes := by
  unfold Obligations.InvalidWordsAreExactlyTheListedOnes
  intro op
  rw [decodeWord, dispatch_eq_none_iff, dispatchFamily0_eq_none_iff, dispatchFamily8_eq_none_iff,
    dispatchFamilyE_eq_none_iff, dispatchFamilyF_eq_none_iff, decodeFields_top_toNat, decodeFields_n_toNat,
    decodeFields_kk_toNat]

/-- Settles O7: each word is evaluated. -/
theorem writtenOutWordsDecode : Obligations.WrittenOutWordsDecode := by
  unfold Obligations.WrittenOutWordsDecode
  decide

end Sys2Proof
end

section
/-! SUPPORT. The assembler line of an instruction (R42): it passes each check of `AsmLine.wellFormed`, and its mnemonic and
operands give the instruction back. -/

namespace Sys2Proof

variable (i : Instr)

theorem disassemble_selectsRow : (disassemble i).selectsRow = true := by
  cases i <;> rfl

theorem disassemble_registersExist : (disassemble i).operands.all Operand.registerExists = true := by
  cases i <;> simp [disassemble, Operand.registerExists, Operand.ofReg]

theorem disassemble_numbersFit : (disassemble i).numbersFit = true := by
  have h4 (n : Nibble) : n.toNat < 16 := n.isLt
  have h8 (kk : Byte) : kk.toNat < 256 := kk.isLt
  have h12 (nnn : Addr) : nnn.toNat < 4096 := nnn.isLt
  cases i <;> simp [disassemble, AsmLine.numbersFit, AsmLine.numberBound, Operand.ofReg, h4, h8, h12]

theorem disassemble_wellFormed : (disassemble i).wellFormed = true := by
  rw [AsmLine.wellFormed, disassemble_selectsRow, disassemble_registersExist, disassemble_numbersFit]
  rfl

theorem assembleRow_disassemble : assembleRow (disassemble i) = some i := by
  cases i <;> simp [disassemble, assembleRow, Operand.ofReg]

theorem assemble_disassemble : assemble (disassemble i) = some i := by
  rw [assemble, if_pos (disassemble_wellFormed i), assembleRow_disassemble]

/-- Settles O8: the line passes the three checks, and its operands are the numbers they came from. -/
theorem assembleInvertsDisassemble : Obligations.AssembleInvertsDisassemble := by
  unfold Obligations.AssembleInvertsDisassemble
  exact fun i => ⟨disassemble_wellFormed i, assemble_disassemble i⟩

end Sys2Proof
end

section
/-! SUPPORT. One Step and the step of the host's machine (R43): the fetch, the decoded instruction, the halted engine, what a
Step returns, and that a state with `SP` at most 16 always steps. -/

namespace Sys2Proof.Machine

variable {s t : State}

/-! ### The fetch and the decoded instruction -/

/-- Settles O9: `State.fetchWord_toNat` says it. -/
theorem fetchReadsTwoBytesBigEndian : Obligations.FetchReadsTwoBytesBigEndian := by
  unfold Obligations.FetchReadsTwoBytesBigEndian
  exact State.fetchWord_toNat

theorem step_decoded {i : Instr} (h : s.Running) (hd : decodeWord s.fetchWord = some i) :
    step s = andThen (exec i s) State.betweenSteps := by
  rw [step, instrStep_decoded h hd]

/-- Settles O10: with no fault latched only the decoded instruction is left of the Step. -/
theorem stepRunsTheDecodedInstruction : Obligations.StepRunsTheDecodedInstruction := by
  unfold Obligations.StepRunsTheDecodedInstruction
  exact fun s i h hd => ⟨instrStep_decoded h hd, step_decoded h hd⟩

/-! ### The halted engine -/

theorem step_halted (h : s.err ≠ .none) : step s = .next s.betweenSteps :=
  step_eq_next.2 ⟨s, instrStep_halted h, rfl⟩

theorem stepReply_halted (h : s.err ≠ .none) : stepReply s t = .halted s.err := if_pos h

/-- Between two Steps only the timers, the dirty mark and the model's own fields change (R106, R107). -/
theorem frame_betweenSteps (s : State) :
    Frame s s.betweenSteps [] [.delayTimer, .soundTimer, .screen, .inputs] := by
  refine ⟨fun r _ => s.betweenSteps_reg r, fun p hp => ?_⟩
  cases p
  case delayTimer | soundTimer | screen | inputs => simp at hp
  case stackSlots => exact s.betweenSteps_slot
  case memory => exact fun _ => rfl
  all_goals rfl

/-- Settles O13: the Step itself does nothing, so what is left of `step` is what lies between two Steps. -/
theorem haltedEngineDoesNothing : Obligations.HaltedEngineDoesNothing := by
  unfold Obligations.HaltedEngineDoesNothing
  exact fun s h => ⟨instrStep_halted h, stepReply_halted h, s.betweenSteps, step_halted h, s.betweenSteps_err,
    s.betweenSteps_pc, s.betweenSteps_fb, frame_betweenSteps s⟩

/-! ### What a Step returns -/

theorem State.waits_iff : s.waits = true ↔ s.keys = 0 ∧ ∃ x, decodeWord s.fetchWord = some (.ldVxK x) := by
  unfold State.waits
  split
  · next x hd => simp [hd]
  · next hd => exact iff_of_false Bool.false_ne_true fun ⟨_, x, hx⟩ => hd x hx

theorem stepReply_of_running (hs : s.Running) (ht : t.Running) :
    stepReply s t = if s.waits then .waiting else .completed := by
  rw [stepReply, if_neg (not_not.2 hs), if_neg (not_not.2 ht)]

/-- LD Vx,K with no key held leaves the state as it is (R84). -/
theorem instrStep_eq_self_of_waits (hs : s.Running) (hw : s.waits = true) (h : instrStep s = .next t) : t = s := by
  obtain ⟨hkeys, x, hd⟩ := State.waits_iff.1 hw
  rw [instrStep_decoded hs hd] at h
  obtain ⟨-, ht⟩ | ⟨hheld, -⟩ := execLdVxK_cases h
  · exact ht
  · exact absurd hkeys hheld

/-- Settles O16: with no fault before or after, the reply is decided by `State.waits`. -/
theorem stepReturnsItsOutcome : Obligations.StepReturnsItsOutcome := by
  unfold Obligations.StepReturnsItsOutcome
  intro s t hs h ht
  rw [← State.waits_iff, stepReply_of_running hs ht]
  refine ⟨?_, fun hw => if_neg hw, fun hw => instrStep_eq_self_of_waits hs hw h⟩
  cases s.waits <;> simp

/-! ### Every legal state steps -/

theorem execRet_answers (h : s.sp ≤ 16) : ∃ t, execRet s = .next t := by
  by_cases h0 : s.sp = 0
  · exact ⟨_, execRet_underflow h0⟩
  · have hslot : (s.slot s.sp.toNat).isSome = true := (s.slot_isSome _).2 (by bv_omega)
    obtain ⟨a, ha⟩ := Option.isSome_iff_exists.1 hslot
    exact ⟨_, execRet_pop h0 ha⟩

theorem execCall_answers (nnn : Addr) (h : s.sp ≤ 16) : ∃ t, execCall nnn s = .next t := by
  by_cases h16 : s.sp = 16
  · exact ⟨_, execCall_overflow nnn h16⟩
  · have hslot : (s.slot (s.sp.toNat + 1)).isSome = true := (s.slot_isSome _).2 (by bv_omega)
    obtain ⟨a, ha⟩ := Option.isSome_iff_exists.1 hslot
    exact ⟨_, execCall_push nnn h16 ha⟩

/-- RET and CALL are the only instructions that can stop, and their slots exist where `SP` is at most 16 (R10). -/
theorem exec_answers (i : Instr) (h : s.sp ≤ 16) : ∃ t, exec i s = .next t := by
  obtain hnext | ⟨rfl, -⟩ | ⟨nnn, rfl, -⟩ := exec_next_or_stack i s
  · exact hnext
  · exact execRet_answers h
  · exact execCall_answers nnn h

theorem instrStep_answers (h : s.sp ≤ 16) : ∃ t, instrStep s = .next t := by
  by_cases herr : s.err = .none
  · cases hd : decodeWord s.fetchWord with
    | none => exact ⟨_, instrStep_invalid herr hd⟩
    | some i => rw [instrStep_decoded herr hd]; exact exec_answers i h
  · exact ⟨s, instrStep_halted herr⟩

/-- Settles O50: of the legal values only the bound on `SP` is needed. -/
theorem legalStatesAlwaysStep : Obligations.LegalStatesAlwaysStep := by
  unfold Obligations.LegalStatesAlwaysStep
  rintro s ⟨-, hsp, -⟩
  obtain ⟨t, ht⟩ := instrStep_answers hsp
  exact ⟨t.betweenSteps, step_eq_next.2 ⟨t, ht, rfl⟩⟩

end Sys2Proof.Machine
end

section
/-! SUPPORT. Control transfer (R51 to R58): where `PC` goes, what CALL leaves on the stack and RET finds there, and what
either leaves unchanged. -/

namespace Sys2Proof.Machine

variable {s t : State}

/-! ### Frames -/

/-- A part that is kept after all need not be listed as written. -/
theorem Frame.erase {regs : List Reg} {written : List Part} {q : Part} (h : Frame s t regs written)
    (hq : q.Kept s t) : Frame s t regs (written.erase q) := by
  obtain ⟨hregs, hparts⟩ := h
  refine ⟨hregs, fun p hp => ?_⟩
  by_cases hpq : p = q
  · exact hpq ▸ hq
  · exact hparts p fun hmem => hp ((List.mem_erase_of_ne hpq).2 hmem)

/-- Writing `PC`, `SP` and the slots is all that CALL can do short of a fault. -/
theorem frame_setControl (s : State) (pc : Word) (sp : Byte) (stack : Vector Word 16) :
    Frame s { s with pc := pc, sp := sp, stack := stack } [] [.stackPointer, .stackSlots] := by
  refine ⟨fun _ _ => rfl, fun p hp => ?_⟩
  cases p
  case stackPointer | stackSlots => simp at hp
  case memory => exact fun _ => rfl
  case screen => exact ⟨rfl, rfl⟩
  case inputs => exact ⟨rfl, rfl, rfl⟩
  all_goals rfl

theorem frame_pop (s : State) (a : Word) (sp : Byte) : Frame s { s.jump a with sp := sp } [] [.stackPointer] :=
  (frame_setControl s a sp s.stack).erase (q := .stackSlots) fun _ => rfl

theorem frame_jump (s : State) (a : Word) : Frame s (s.jump a) [] [] :=
  (frame_pop s a s.sp).erase (q := .stackPointer) rfl

/-! ### Where `PC` goes -/

theorem State.pcNext_toNat (s : State) : s.pcNext.toNat = (s.pc.toNat + 2) % 65536 := BitVec.toNat_add ..

/-- The target of JP V0 never wraps: the largest is 4350 (R58). -/
theorem State.indexedTarget_toNat (s : State) (nnn : Addr) :
    (s.indexedTarget nnn).toNat = nnn.toNat + (s.reg 0).toNat := by
  have := nnn.isLt
  have := (s.reg 0).isLt
  rw [State.indexedTarget, BitVec.toNat_add, zextAddr_toNat, zextByte_toNat]
  omega

theorem State.skipsIf_skipIf (s : State) {c : Bool} {P : Prop} (hc : c = true ↔ P) : SkipsIf P s (s.skipIf c) := by
  refine ⟨fun hP => ?_, fun hP => ?_⟩
  · rw [State.skipIf_pc, if_pos (hc.2 hP), BitVec.toNat_add, s.pcNext_toNat, show (2 : Word).toNat = 2 from rfl]
    omega
  · rw [AtNext, State.skipIf_pc, if_neg (mt hc.1 hP), s.pcNext_toNat]

/-- What an instruction does that ends in the skip rule and nothing else (R47). -/
theorem exec_skips {i : Instr} {c : Bool} {P : Prop} (h : exec i s = .next (s.skipIf c)) (hc : c = true ↔ P) :
    ∃ t, exec i s = .next t ∧ SkipsIf P s t ∧ Frame s t [] [] :=
  ⟨_, h, s.skipsIf_skipIf hc, frame_jump s _⟩

theorem byte_beq_iff {a b : Byte} : (a == b) = true ↔ a.toNat = b.toNat := beq_iff_eq.trans BitVec.toNat_inj.symm

theorem byte_bne_iff {a b : Byte} : (a != b) = true ↔ a.toNat ≠ b.toNat :=
  bne_iff_ne.trans (not_congr BitVec.toNat_inj.symm)

/-! ### The stack -/

theorem State.exists_slot (s : State) {k : Nat} (h1 : 1 ≤ k) (h16 : k ≤ 16) : ∃ a, s.slot k = some a :=
  Option.isSome_iff_exists.1 ((s.slot_isSome k).2 ⟨h1, h16⟩)

theorem State.slot_eq_of_stack_eq (h : s.stack = t.stack) (k : Nat) : s.slot k = t.slot k := by
  rw [State.slot, State.slot, h]

/-- With fewer than 16 frames in use CALL pushes one (R53). -/
theorem execCall_of_lt (nnn : Addr) (h : s.sp.toNat < 16) : execCall nnn s =
    .next { (s.setSlot (s.sp.toNat + 1) s.pcNext).jump (zextAddr nnn) with sp := s.sp + 1 } := by
  obtain ⟨a, ha⟩ := s.exists_slot (Nat.le_add_left 1 s.sp.toNat) h
  exact execCall_push nnn (by bv_omega) ha

theorem sp_add_one_toNat (h : s.sp.toNat < 16) : (s.sp + 1).toNat = s.sp.toNat + 1 := by bv_omega

theorem sp_sub_one_toNat (h : 1 ≤ s.sp.toNat) : (s.sp - 1).toNat = s.sp.toNat - 1 := by bv_omega

/-- Settles O21: RET finds in the slot that `SP` names the `pc_next` that CALL put there. -/
theorem retReturnsAfterTheCall : Obligations.RetReturnsAfterTheCall := by
  unfold Obligations.RetReturnsAfterTheCall
  intro nnn s u hs
  refine ⟨_, execCall_of_lt nnn hs, fun hsp hstack => ?_⟩
  have hsp : u.sp = s.sp + 1 := hsp
  have hne : u.sp ≠ 0 := by bv_omega
  have hslot : u.slot u.sp.toNat = some s.pcNext := by
    rw [State.slot_eq_of_stack_eq (t := s.setSlot (s.sp.toNat + 1) s.pcNext) hstack, hsp, sp_add_one_toNat hs,
      s.setSlot_slot _ _ _ (Nat.le_add_left ..) hs, if_pos rfl]
  refine ⟨_, execRet_pop hne hslot, s.pcNext_toNat, ?_⟩
  rw [hsp, BitVec.add_sub_cancel]

/-- Settles O18: one clause for each equation of RET. -/
theorem retPopsAFrame : Obligations.RetPopsAFrame := by
  unfold Obligations.RetPopsAFrame
  refine fun s => ⟨execRet_underflow, fun h1 h16 => ?_⟩
  obtain ⟨a, ha⟩ := s.exists_slot h1 h16
  have hne : s.sp ≠ 0 := by bv_omega
  exact ⟨a, _, ha, execRet_pop hne ha, rfl, sp_sub_one_toNat h1, frame_pop s a _⟩

/-- Settles O20: one clause for each equation of CALL, the slots by `State.setSlot_slot`. -/
theorem callPushesAFrame : Obligations.CallPushesAFrame := by
  unfold Obligations.CallPushesAFrame
  refine fun nnn s => ⟨execCall_overflow nnn, fun h => ?_⟩
  have hslot (k : Nat) := s.setSlot_slot (s.sp.toNat + 1) k s.pcNext (Nat.le_add_left ..) h
  exact ⟨s.pcNext, _, execCall_of_lt nnn h, s.pcNext_toNat, (hslot _).trans (if_pos rfl),
    fun k hk => (hslot k).trans (if_neg hk), sp_add_one_toNat h, zextAddr_toNat nnn, frame_setControl s _ _ _⟩

/-! ### Jumps and skips -/

/-- Settles O19: JP is `State.jump` to the widened address. -/
theorem jpGoesToTheAddress : Obligations.JpGoesToTheAddress := by
  unfold Obligations.JpGoesToTheAddress
  exact fun nnn s => ⟨_, rfl, zextAddr_toNat nnn, frame_jump s _⟩

/-- Settles O25: JP V0 is `State.jump` to a sum that does not wrap. -/
theorem jpV0AddsV0 : Obligations.JpV0AddsV0 := by
  unfold Obligations.JpV0AddsV0
  exact fun nnn s => ⟨_, rfl, s.indexedTarget_toNat nnn, frame_jump s _⟩

/-- Settles O23: both end in the skip rule, on equality and on difference. -/
theorem skipsOnImmediate : Obligations.SkipsOnImmediate := by
  unfold Obligations.SkipsOnImmediate
  exact fun _ _ _ => ⟨exec_skips rfl byte_beq_iff, exec_skips rfl byte_bne_iff⟩

/-- Settles O24: both end in the skip rule, on equality and on difference. -/
theorem skipsOnRegister : Obligations.SkipsOnRegister := by
  unfold Obligations.SkipsOnRegister
  exact fun _ _ _ => ⟨exec_skips rfl byte_beq_iff, exec_skips rfl byte_bne_iff⟩

end Sys2Proof.Machine
end

section
/-! SUPPORT. The register and ALU instructions (R59 to R69): what writing a result, or a result and a flag, leaves
unchanged, and the results and flags as numbers. -/

namespace Sys2Proof.Machine

variable {s : State} {i : Instr} {x : Reg}

/-! ### Frames -/

/-- Writing general registers and `PC` keeps every part of the state beside them. -/
theorem Part.kept_setRegisters (p : Part) (s : State) (v : Vector Byte 16) (pc : Word) :
    p.Kept s { s with v := v, pc := pc } := by
  cases p
  case stackSlots | memory => exact fun _ => rfl
  case screen => exact ⟨rfl, rfl⟩
  case inputs => exact ⟨rfl, rfl, rfl⟩
  all_goals rfl

theorem frame_setReg_advance (s : State) (x : Reg) (b : Byte) : Frame s (s.setReg x b).advance [x] [] :=
  ⟨fun r hr => s.setReg_reg_of_ne x r b (by simpa using hr), fun p _ => p.kept_setRegisters ..⟩

theorem frame_setRegFlag_advance (s : State) (x : Reg) (b f : Byte) :
    Frame s (s.setRegFlag x b f).advance [x, VF] [] := by
  refine ⟨fun r hr => ?_, fun p _ => p.kept_setRegisters ..⟩
  obtain ⟨hx, hvf⟩ : r ≠ x ∧ r ≠ VF := by simpa using hr
  rw [State.advance_reg, s.setRegFlag_reg, if_neg hvf, if_neg hx]

/-! ### The two shapes of instruction -/

/-- What an instruction does that writes one register and no flag. -/
theorem exec_writesResult {b : Byte} (h : exec i s = writeResult x b s) :
    ∃ t, exec i s = .next t ∧ t.reg x = b ∧ AtNext s t ∧ Frame s t [x] [] :=
  ⟨_, h, s.setReg_reg_self x b, s.pcNext_toNat, frame_setReg_advance s x b⟩

/-- The same with the result given as a number. -/
theorem exec_writesNumber {b : Byte} {n : Nat} (h : exec i s = writeResult x b s) (hb : b.toNat = n) :
    ∃ t, exec i s = .next t ∧ (t.reg x).toNat = n ∧ AtNext s t ∧ Frame s t [x] [] := by
  obtain ⟨t, ht, hx, hrest⟩ := exec_writesResult h
  exact ⟨t, ht, hx ▸ hb, hrest⟩

/-- The same with the result given bit by bit. -/
theorem exec_writesBits {b : Byte} {bit : Nat → Bool} (h : exec i s = writeResult x b s)
    (hb : ∀ k, b.getLsbD k = bit k) :
    ∃ t, exec i s = .next t ∧ (∀ k < 8, (t.reg x).getLsbD k = bit k) ∧ AtNext s t ∧ Frame s t [x] [] := by
  obtain ⟨t, ht, hx, hrest⟩ := exec_writesResult h
  exact ⟨t, ht, fun k _ => hx ▸ hb k, hrest⟩

/-- What an instruction does that writes a result and a flag, the flag last (R48, D8). -/
theorem exec_writesResultFlag {b f : Byte} {n m : Nat} (h : exec i s = writeResultFlag x b f s) (hb : b.toNat = n)
    (hf : f.toNat = m) : ∃ t, exec i s = .next t ∧ (x ≠ VF → (t.reg x).toNat = n) ∧ (t.reg VF).toNat = m ∧
      AtNext s t ∧ Frame s t [x, VF] [] := by
  refine ⟨_, h, fun hx => ?_, ?_, s.pcNext_toNat, frame_setRegFlag_advance s x b f⟩
  · rw [State.advance_reg, s.setRegFlag_reg, if_neg hx, if_pos rfl, hb]
  · rw [State.advance_reg, s.setRegFlag_reg_vf, hf]

/-! ### Results and flags as numbers -/

theorem byte_sub_toNat (a b : Byte) : (a - b).toNat = (a.toNat + 256 - b.toNat) % 256 := by bv_omega

theorem byte_shiftRight_one_toNat (a : Byte) : (a >>> 1).toNat = a.toNat / 2 := BitVec.toNat_ushiftRight ..

theorem byte_shiftLeft_one_toNat (a : Byte) : (a <<< 1).toNat = a.toNat * 2 % 256 := by
  rw [BitVec.toNat_shiftLeft, Nat.shiftLeft_eq]

theorem carryOut_toNat (a b : Byte) : (carryOut a b).toNat = if a.toNat + b.toNat > 255 then 1 else 0 := by
  simp only [carryOut, flag_toNat, decide_eq_true_eq]

theorem notBorrow_toNat (a b : Byte) : (notBorrow a b).toNat = if a.toNat ≥ b.toNat then 1 else 0 := by
  simp only [notBorrow, flag_toNat, decide_eq_true_eq]

/-- A bit of a byte as a flag. -/
theorem flag_getLsbD_toNat (a : Byte) (k : Nat) : (flag (a.getLsbD k)).toNat = a.toNat / 2 ^ k % 2 := by
  rw [flag_toNat, ← Nat.toNat_testBit, BitVec.testBit_toNat]
  exact (Bool.cond_eq_ite ..).symm

theorem lowBitOut_toNat (a : Byte) : (lowBitOut a).toNat = a.toNat % 2 := by
  rw [lowBitOut, flag_getLsbD_toNat, pow_zero, Nat.div_one]

theorem topBitOut_toNat (a : Byte) : (topBitOut a).toNat = a.toNat / 128 := by
  have := a.isLt
  rw [topBitOut, flag_getLsbD_toNat]
  omega

/-! ### The obligations -/

/-- Settles O26: both write their operand and no flag. -/
theorem ldWritesItsRegister : Obligations.LdWritesItsRegister := by
  unfold Obligations.LdWritesItsRegister
  exact fun _ _ _ _ => ⟨exec_writesResult rfl, exec_writesResult rfl⟩

/-- Settles O27: the sum of two bytes wraps mod 256, and no flag is written. -/
theorem addImmediateWrapsWithoutFlag : Obligations.AddImmediateWrapsWithoutFlag := by
  unfold Obligations.AddImmediateWrapsWithoutFlag
  exact fun _ _ _ => exec_writesNumber rfl (BitVec.toNat_add ..)

/-- Settles O28: each is the word operation, taken bit by bit. -/
theorem logicCombinesBits : Obligations.LogicCombinesBits := by
  unfold Obligations.LogicCombinesBits
  exact fun _ _ _ => ⟨exec_writesBits rfl fun _ => BitVec.getLsbD_or, exec_writesBits rfl fun _ => BitVec.getLsbD_and,
    exec_writesBits rfl fun _ => BitVec.getLsbD_xor⟩

/-- Settles O29: the sum wraps mod 256, and the flag is its carry. -/
theorem addSetsCarry : Obligations.AddSetsCarry := by
  unfold Obligations.AddSetsCarry
  exact fun _ _ _ => exec_writesResultFlag rfl (BitVec.toNat_add ..) (carryOut_toNat ..)

/-- Settles O30: SUBN is SUB with the operands of the difference and of the comparison swapped. -/
theorem subtractSetsNotBorrow : Obligations.SubtractSetsNotBorrow := by
  unfold Obligations.SubtractSetsNotBorrow
  exact fun _ _ _ => ⟨exec_writesResultFlag rfl (byte_sub_toNat ..) (notBorrow_toNat ..),
    exec_writesResultFlag rfl (byte_sub_toNat ..) (notBorrow_toNat ..)⟩

/-- Settles O31: a shift by one halves or doubles, and the flag is bit 0 or bit 7. -/
theorem shiftsMoveOneBitOut : Obligations.ShiftsMoveOneBitOut := by
  unfold Obligations.ShiftsMoveOneBitOut
  exact fun _ _ => ⟨exec_writesResultFlag rfl (byte_shiftRight_one_toNat _) (lowBitOut_toNat _),
    exec_writesResultFlag rfl (byte_shiftLeft_one_toNat _) (topBitOut_toNat _)⟩

end Sys2Proof.Machine
end

section
/-! SUPPORT. The index register and memory instructions (R71 to R76): the values `I` takes as numbers, where the bytes of
a store go, and what writing `I`, memory or a run of registers leaves unchanged. -/

namespace Sys2Proof.Machine

variable {s t : State} {i : Instr}

/-! ### Frames -/

/-- A frame leaves `PC` free, so it outlives the move to `pc_next`. -/
theorem Frame.advance {regs : List Reg} {written : List Part} (h : Frame s t regs written) :
    Frame s t.advance regs written := h

theorem frame_setI (s : State) (a : Word) : Frame s (s.setI a) [] [.index] := by
  refine ⟨fun _ _ => rfl, fun p hp => ?_⟩
  cases p
  case index => exact absurd (List.mem_singleton.2 rfl) hp
  case stackSlots | memory => exact fun _ => rfl
  case screen => exact ⟨rfl, rfl⟩
  case inputs => exact ⟨rfl, rfl, rfl⟩
  all_goals rfl

/-- A store of several bytes writes memory and no other field. -/
theorem State.writeBytes_eq_setMem (s : State) (a : Word) (bs : List Byte) :
    s.writeBytes a bs = { s with mem := (s.writeBytes a bs).mem } := by
  induction bs generalizing s a with
  | nil => rfl
  | cons b bs ih => exact ih ..

theorem frame_writeBytes (s : State) (a : Word) (bs : List Byte) : Frame s (s.writeBytes a bs) [] [.memory] := by
  rw [s.writeBytes_eq_setMem]
  exact frame_setMem s _

theorem frame_setRegsUpTo (s : State) (x : Reg) (f : Reg → Byte) :
    Frame s (s.setRegsUpTo x f) ((List.finRange 16).filter fun k => decide (k ≤ x)) [] := by
  refine ⟨fun r hr => ?_, fun p _ => p.kept_setRegisters s _ s.pc⟩
  have hx : ¬ r ≤ x := by simpa using hr
  rw [s.setRegsUpTo_reg, if_neg hx]

/-! ### The index register -/

/-- The mask of ADD I keeps the sum mod 4096, a divisor of the 65536 at which the sum wraps (R72, D10). -/
theorem State.indexSum_toNat (s : State) (x : Reg) :
    (s.indexSum x).toNat = (s.i.toNat + (s.reg x).toNat) % 4096 := by
  rw [State.indexSum, BitVec.toNat_and, BitVec.toNat_add, zextByte_toNat]
  exact (Nat.and_two_pow_sub_one_eq_mod _ 12).trans (Nat.mod_mod_of_dvd _ (by decide))

/-- What an instruction does that writes `I` and nothing else. -/
theorem exec_writesIndex {a : Word} {n : Nat} (h : exec i s = .next (s.setI a).advance) (ha : a.toNat = n) :
    ∃ t, exec i s = .next t ∧ t.i.toNat = n ∧ AtNext s t ∧ Frame s t [] [.index] :=
  ⟨_, h, ha, s.pcNext_toNat, (frame_setI s a).advance⟩

/-- Settles O32: the address is widened with zeros. -/
theorem ldITakesTheAddress : Obligations.LdITakesTheAddress := by
  unfold Obligations.LdITakesTheAddress
  exact fun nnn _ => exec_writesIndex rfl (zextAddr_toNat nnn)

/-- Settles O33: the sum is cut to 12 bits. -/
theorem addIWrapsInTwelveBits : Obligations.AddIWrapsInTwelveBits := by
  unfold Obligations.AddIWrapsInTwelveBits
  exact fun x s => exec_writesIndex rfl (s.indexSum_toNat x)

/-- Settles O34: five times a byte does not wrap. -/
theorem ldFPointsAtTheGlyph : Obligations.LdFPointsAtTheGlyph := by
  unfold Obligations.LdFPointsAtTheGlyph
  exact fun x s => exec_writesIndex rfl (s.glyphAddress_toNat x)

/-! ### Stores -/

theorem atNext_writeBytes_advance (s : State) (a : Word) (bs : List Byte) : AtNext s (s.writeBytes a bs).advance := by
  rw [AtNext, State.advance_pc, State.writeBytes_pc]
  exact s.pcNext_toNat

/-- Settles O35: the three bytes stored are the digits, and unsigned division and remainder of bytes are those of
numbers. -/
theorem ldBStoresThreeDigits : Obligations.LdBStoresThreeDigits := by
  unfold Obligations.LdBStoresThreeDigits
  intro x s
  have hlen : (bcdDigits (s.reg x)).length = 3 := rfl
  have hread := s.writeBytes_read_inside s.i (bcdDigits (s.reg x)) (by omega)
  refine ⟨_, rfl, ?_, ?_, ?_, s.writeBytes_read_outside s.i (bcdDigits (s.reg x)), atNext_writeBytes_advance ..,
    (frame_writeBytes ..).advance⟩
  · exact (congrArg BitVec.toNat (hread 0 (by omega))).trans BitVec.toNat_udiv
  · exact (congrArg BitVec.toNat (hread 1 (by omega))).trans
      (BitVec.toNat_umod.trans (congrArg (· % 10) BitVec.toNat_udiv))
  · exact (congrArg BitVec.toNat (hread 2 (by omega))).trans BitVec.toNat_umod

/-- Settles O36: the bytes stored are `V[0]` to `V[x]`. -/
theorem ldMemVxStoresTheRegisters : Obligations.LdMemVxStoresTheRegisters := by
  unfold Obligations.LdMemVxStoresTheRegisters
  refine fun x s => ⟨_, rfl, fun _ hk => s.writeBytes_regsUpTo_read hk, fun a ha => ?_, atNext_writeBytes_advance ..,
    (frame_writeBytes ..).advance⟩
  refine s.writeBytes_read_outside s.i _ a fun k hk => ha k ?_
  rw [s.regsUpTo_length] at hk
  exact Nat.le_of_lt_succ hk

/-! ### Loads -/

theorem State.readByte_indexed (s : State) (k : Nat) :
    s.readByte (s.indexed k) = s.mem.read ((s.i.toNat + k) % 4096) :=
  congrArg s.mem.read (port_add s.i k)

/-- Settles O37: a register up to `x` takes the byte at its own place, one above keeps its value. -/
theorem ldVxMemLoadsTheRegisters : Obligations.LdVxMemLoadsTheRegisters := by
  unfold Obligations.LdVxMemLoadsTheRegisters
  refine fun x s => ⟨_, rfl, fun k hk => ?_, fun k hk => ?_, s.pcNext_toNat, (frame_setRegsUpTo s x _).advance⟩
  · rw [State.advance_reg, s.setRegsUpTo_reg, if_pos hk, s.readByte_indexed]
  · rw [State.advance_reg, s.setRegsUpTo_reg, if_neg hk.not_ge]

end Sys2Proof.Machine
end

section
/-! SUPPORT. The display instructions (R77 to R79): a blit as the list of the cells it flips, no cell twice, and what
writing the framebuffer leaves unchanged. -/

namespace Sys2Proof.Machine

variable {cx cy k : Nat} {row : Byte} {rows : List Byte} {x y : Reg} {n : Nibble}

/-! ### Frames -/

theorem frame_setFb (s : State) (f : FrameBuffer) : Frame s (s.setFb f) [] [.screen] := by
  refine ⟨fun _ _ => rfl, fun p hp => ?_⟩
  cases p
  case screen => exact absurd (List.mem_singleton.2 rfl) hp
  case stackSlots | memory => exact fun _ => rfl
  case inputs => exact ⟨rfl, rfl, rfl⟩
  all_goals rfl

/-- Writing one more register adds it to the frame. -/
theorem Frame.setReg {s t : State} {regs : List Reg} {written : List Part} (h : Frame s t regs written) (x : Reg)
    (b : Byte) : Frame s (t.setReg x b) (x :: regs) written := by
  obtain ⟨hregs, hparts⟩ := h
  refine ⟨fun r hr => ?_, fun p hp => ?_⟩
  · obtain ⟨hx, hr⟩ : r ≠ x ∧ r ∉ regs := by simpa using hr
    rw [t.setReg_reg_of_ne x r b hx, hregs r hr]
  · have hkept := hparts p hp
    cases p <;> exact hkept

/-- Settles O38: CLS writes the framebuffer 0 and `PC`. -/
theorem clsClearsEveryCell : Obligations.ClsClearsEveryCell := by
  unfold Obligations.ClsClearsEveryCell
  exact fun s => ⟨_, rfl, fun _ _ _ _ => BitVec.getLsbD_zero, rfl, s.pcNext_toNat, (frame_setFb s 0).advance⟩

/-! ### Cells -/

theorem cellIndex_lt (cx cy : Nat) : cellIndex cx cy < 2048 := by
  simp only [cellIndex, Config.fbW, Config.fbH]
  omega

/-- The number of a cell determines its column and row (R13). -/
theorem cell_eq_cellIndex_iff {px py : Nat} (hpx : px < 64) :
    py * 64 + px = cellIndex cx cy ↔ px = cx % 64 ∧ py = cy % 32 := by
  simp only [cellIndex, Config.fbW, Config.fbH]
  omega

theorem cellIndex_inj {cx' cy' : Nat} :
    cellIndex cx cy = cellIndex cx' cy' ↔ cx % 64 = cx' % 64 ∧ cy % 32 = cy' % 32 :=
  cell_eq_cellIndex_iff (Nat.mod_lt _ (by decide))

/-- Every bit of the framebuffer is the cell of some column and row (R13). -/
theorem exists_cell (hk : k < 2048) : ∃ px < 64, ∃ py < 32, k = py * 64 + px :=
  ⟨k % 64, by omega, k / 64, by omega, by omega⟩

/-! ### Flipping a list of cells -/

theorem flipCell_fst_getLsbD (acc : FrameBuffer × Bool) (j : Nat) (hk : k < 2048) :
    (flipCell acc j).1.getLsbD k = (acc.1.getLsbD k ^^ decide (k = j)) := by
  simp [flipCell, hk]

/-- Cells that are all different each flip once. -/
theorem foldl_flipCell_fst_getLsbD (cells : List Nat) (hnodup : cells.Nodup) (acc : FrameBuffer × Bool)
    (hk : k < 2048) :
    (cells.foldl flipCell acc).1.getLsbD k = (acc.1.getLsbD k ^^ decide (k ∈ cells)) := by
  induction cells generalizing acc with
  | nil => simp
  | cons j cells ih =>
    obtain ⟨hj, hnodup⟩ := List.nodup_cons.1 hnodup
    rw [List.foldl_cons, ih hnodup, flipCell_fst_getLsbD acc j hk]
    by_cases hkj : k = j
    · subst hkj
      simp [hj]
    · simp [hkj]

/-- Cells that are all different collide where one was 1 before the first flip. -/
theorem foldl_flipCell_snd_iff (cells : List Nat) (hnodup : cells.Nodup) (hlt : ∀ k ∈ cells, k < 2048)
    (acc : FrameBuffer × Bool) :
    (cells.foldl flipCell acc).2 = true ↔ acc.2 = true ∨ ∃ k ∈ cells, acc.1.getLsbD k = true := by
  induction cells generalizing acc with
  | nil => simp
  | cons j cells ih =>
    obtain ⟨hj, hnodup⟩ := List.nodup_cons.1 hnodup
    have hkept : ∀ k ∈ cells, (flipCell acc j).1.getLsbD k = acc.1.getLsbD k := fun k hk => by
      have hkj : k ≠ j := fun e => hj (e ▸ hk)
      simp [flipCell_fst_getLsbD acc j (hlt k (.tail _ hk)), hkj]
    have htail : (∃ k ∈ cells, (flipCell acc j).1.getLsbD k = true) ↔ ∃ k ∈ cells, acc.1.getLsbD k = true :=
      exists_congr fun k => and_congr_right fun hk => by rw [hkept k hk]
    rw [List.foldl_cons, ih hnodup fun k hk => hlt k (.tail _ hk), htail, List.exists_mem_cons_iff, ← or_assoc,
      flipCell, Bool.or_eq_true]

/-! ### The cells of a sprite -/

/-- The cells that the set pixels of a sprite row fall on, from the leftmost pixel on. -/
def rowCells (row : Byte) (cx cy : Nat) : List Nat :=
  ((List.range 8).filter fun c => row.getLsbD (7 - c)).map fun c => cellIndex (cx + c) cy

/-- The cells that the set pixels of a sprite fall on, in the order in which the blit flips them. -/
def spriteCells (cx : Nat) : Nat → List Byte → List Nat
  | _, [] => []
  | cy, row :: rows => rowCells row cx cy ++ spriteCells cx (cy + 1) rows

theorem blitRow_eq_foldl (row : Byte) (cx cy : Nat) (acc : FrameBuffer × Bool) :
    blitRow row cx cy acc = (rowCells row cx cy).foldl flipCell acc := by
  rw [rowCells, List.foldl_map, List.foldl_filter]
  rfl

theorem blitRows_eq_foldl (cx cy : Nat) (rows : List Byte) (acc : FrameBuffer × Bool) :
    blitRows cx cy rows acc = (spriteCells cx cy rows).foldl flipCell acc := by
  induction rows generalizing cy acc with
  | nil => rfl
  | cons row rows ih => rw [blitRows, ih, blitRow_eq_foldl, spriteCells, List.foldl_append]

theorem mem_rowCells :
    k ∈ rowCells row cx cy ↔ ∃ c < 8, row.getLsbD (7 - c) = true ∧ k = cellIndex (cx + c) cy := by
  simp only [rowCells, List.mem_map, List.mem_filter, List.mem_range, and_assoc, eq_comm]

theorem mem_spriteCells : k ∈ spriteCells cx cy rows ↔
    ∃ r row, rows[r]? = some row ∧ ∃ c < 8, row.getLsbD (7 - c) = true ∧ k = cellIndex (cx + c) (cy + r) := by
  induction rows generalizing cy with
  | nil => simp [spriteCells]
  | cons row rows ih =>
    rw [spriteCells, List.mem_append, mem_rowCells, ih]
    constructor
    · rintro (h | ⟨r, row', hr, h⟩)
      · exact ⟨0, row, rfl, h⟩
      · exact ⟨r + 1, row', hr, by rwa [Nat.add_right_comm] at h⟩
    · rintro ⟨_ | r, row', hr, h⟩
      · cases hr
        exact .inl h
      · exact .inr ⟨r, row', hr, by rwa [Nat.add_right_comm]⟩

theorem lt_of_mem_spriteCells (hk : k ∈ spriteCells cx cy rows) : k < 2048 := by
  obtain ⟨r, row, -, c, -, -, rfl⟩ := mem_spriteCells.1 hk
  exact cellIndex_lt ..

/-- The eight pixels of a row fall on different columns. -/
theorem rowCells_nodup (row : Byte) (cx cy : Nat) : (rowCells row cx cy).Nodup := by
  refine List.Nodup.map_on (fun c hc d hd h => ?_) (List.nodup_range.filter _)
  have hc := List.mem_range.1 (List.mem_of_mem_filter hc)
  have hd := List.mem_range.1 (List.mem_of_mem_filter hd)
  obtain ⟨hcol, -⟩ := cellIndex_inj.1 h
  omega

/-- At most 32 rows fall on different rows of the framebuffer, so no cell is touched twice (R79). -/
theorem spriteCells_nodup (cx cy : Nat) (rows : List Byte) (hlen : rows.length ≤ 32) :
    (spriteCells cx cy rows).Nodup := by
  induction rows generalizing cy with
  | nil => exact List.nodup_nil
  | cons row rows ih =>
    rw [List.length_cons] at hlen
    refine List.Nodup.append (rowCells_nodup row cx cy) (ih (cy + 1) (by omega)) fun k hrow hrest => ?_
    obtain ⟨c, -, -, rfl⟩ := mem_rowCells.1 hrow
    obtain ⟨r, row', hr, d, -, -, heq⟩ := mem_spriteCells.1 hrest
    obtain ⟨hr, -⟩ := List.getElem?_eq_some_iff.1 hr
    obtain ⟨-, hline⟩ := cellIndex_inj.1 heq
    omega

/-! ### DRW -/

/-- The cells that DRW Vx,Vy,n flips. -/
def State.drwCells (s : State) (x y : Reg) (n : Nibble) : List Nat :=
  spriteCells (s.reg x).toNat (s.reg y).toNat (s.readBytes s.i n.toNat)

/-- The state DRW Vx,Vy,n leaves. -/
def State.drawn (s : State) (x y : Reg) (n : Nibble) : State :=
  let d := (s.drwCells x y n).foldl flipCell (s.fb, false)
  ((s.setFb d.1).setReg VF (flag d.2)).advance

theorem exec_drw (x y : Reg) (n : Nibble) (s : State) : exec (.drw x y n) s = .next (s.drawn x y n) := by
  rw [State.drawn, State.drwCells, ← blitRows_eq_foldl]
  rfl

theorem State.drwCells_nodup (s : State) (x y : Reg) (n : Nibble) : (s.drwCells x y n).Nodup := by
  refine spriteCells_nodup _ _ _ ?_
  rw [s.readBytes_length]
  omega

theorem State.mem_drwCells {s : State} {px py : Nat} (hpx : px < 64) :
    py * 64 + px ∈ s.drwCells x y n ↔ s.SpriteCovers x y n px py := by
  simp only [State.drwCells, mem_spriteCells, cell_eq_cellIndex_iff hpx, State.SpriteCovers]
  constructor
  · rintro ⟨r, row, hrow, h⟩
    obtain ⟨hr, -⟩ := List.getElem?_eq_some_iff.1 hrow
    rw [s.readBytes_length] at hr
    rw [s.readBytes_getElem? _ _ _ hr, Option.some_inj] at hrow
    exact ⟨r, hr, hrow ▸ h⟩
  · rintro ⟨r, hr, h⟩
    exact ⟨r, _, s.readBytes_getElem? _ _ _ hr, h⟩

theorem State.drawn_getLsbD (s : State) (x y : Reg) (n : Nibble) (hk : k < 2048) :
    (s.drawn x y n).fb.getLsbD k = (s.fb.getLsbD k ^^ decide (k ∈ s.drwCells x y n)) :=
  foldl_flipCell_fst_getLsbD _ (s.drwCells_nodup x y n) _ hk

theorem State.drawn_getLsbD_of_mem (s : State) (hmem : k ∈ s.drwCells x y n) :
    (s.drawn x y n).fb.getLsbD k = !s.fb.getLsbD k := by
  rw [s.drawn_getLsbD x y n (lt_of_mem_spriteCells hmem), decide_eq_true hmem, Bool.xor_true]

theorem State.drawn_getLsbD_of_not_mem (s : State) (hk : k < 2048) (hmem : k ∉ s.drwCells x y n) :
    (s.drawn x y n).fb.getLsbD k = s.fb.getLsbD k := by
  rw [s.drawn_getLsbD x y n hk, decide_eq_false hmem, Bool.xor_false]

/-- A cell that DRW changed is one it flipped. -/
theorem State.mem_drwCells_of_cell_ne (s : State) {px py : Nat} (hpx : px < 64) (hpy : py < 32)
    (hne : (s.drawn x y n).cell px py ≠ s.cell px py) : py * 64 + px ∈ s.drwCells x y n :=
  not_imp_comm.1 (s.drawn_getLsbD_of_not_mem (by omega)) hne

theorem State.drawn_reg_of_ne (s : State) (x y : Reg) (n : Nibble) {r : Reg} (hr : r ≠ VF) :
    (s.drawn x y n).reg r = s.reg r :=
  State.setReg_reg_of_ne _ VF r _ hr

theorem flag_eq_one_iff (c : Bool) : flag c = 1 ↔ c = true := by cases c <;> decide

theorem State.drawn_vf (s : State) (x y : Reg) (n : Nibble) : ∃ c, (s.drawn x y n).reg VF = flag c :=
  ⟨_, State.setReg_reg_self ..⟩

/-- VF after DRW is 1 exactly if a set pixel fell on a cell that was 1 (R79). -/
theorem State.drawn_vf_eq_one_iff (s : State) (x y : Reg) (n : Nibble) :
    (s.drawn x y n).reg VF = 1 ↔ ∃ k ∈ s.drwCells x y n, s.fb.getLsbD k = true := by
  have hsnd := foldl_flipCell_snd_iff _ (s.drwCells_nodup x y n) (fun _ => lt_of_mem_spriteCells) (s.fb, false)
  rw [State.drawn, State.advance_reg, State.setReg_reg_self, flag_eq_one_iff, hsnd, or_iff_right Bool.false_ne_true]

/-- Settles O39: a cell flips exactly if it is in the list. -/
theorem drwFlipsTheCoveredCells : Obligations.DrwFlipsTheCoveredCells := by
  unfold Obligations.DrwFlipsTheCoveredCells
  refine fun x y n s => ⟨_, exec_drw x y n s, fun px hpx py hpy => ?_, rfl, s.pcNext_toNat,
    ((frame_setFb s _).setReg VF _).advance⟩
  rw [← State.mem_drwCells hpx]
  exact ⟨s.drawn_getLsbD_of_mem, s.drawn_getLsbD_of_not_mem (by omega)⟩

/-- Settles O40: the cells that went from 1 to 0 are those in the list that were 1. -/
theorem drwReportsCollision : Obligations.DrwReportsCollision := by
  unfold Obligations.DrwReportsCollision
  refine fun x y n s => ⟨_, exec_drw x y n s, ?_, (s.drawn_vf_eq_one_iff x y n).trans ⟨?_, ?_⟩⟩
  · obtain ⟨c, hc⟩ := s.drawn_vf x y n
    exact hc ▸ flag_eq_zero_or_one c
  · rintro ⟨k, hmem, hone⟩
    obtain ⟨px, hpx, py, hpy, rfl⟩ := exists_cell (lt_of_mem_spriteCells hmem)
    exact ⟨px, hpx, py, hpy, hone, (s.drawn_getLsbD_of_mem hmem).trans (congrArg not hone)⟩
  · rintro ⟨px, hpx, py, hpy, hone, hzero⟩
    exact ⟨_, s.mem_drwCells_of_cell_ne hpx hpy (by simp [hone, hzero]), hone⟩

/-! ### The second drawing -/

theorem State.readBytes_eq_of_mem_eq {s t : State} (h : t.mem = s.mem) (a : Word) (n : Nat) :
    t.readBytes a n = s.readBytes a n := by
  induction n generalizing a with
  | zero => rfl
  | succ n ih => rw [State.readBytes, State.readBytes, ih, State.readByte, h]; rfl

/-- A drawing changes neither the sprite nor, short of VF, its place. -/
theorem State.drawn_drwCells (s : State) (n : Nibble) (hx : x ≠ VF) (hy : y ≠ VF) :
    (s.drawn x y n).drwCells x y n = s.drwCells x y n := by
  have hrows : (s.drawn x y n).readBytes s.i n.toNat = s.readBytes s.i n.toNat :=
    State.readBytes_eq_of_mem_eq (by rfl) ..
  rw [State.drwCells, s.drawn_reg_of_ne x y n hx, s.drawn_reg_of_ne x y n hy]
  exact congrArg _ hrows

/-- XOR self-cancel (S5). -/
theorem State.drawn_drawn_fb (s : State) (n : Nibble) (hx : x ≠ VF) (hy : y ≠ VF) :
    ((s.drawn x y n).drawn x y n).fb = s.fb := by
  refine BitVec.eq_of_getLsbD_eq fun k hk => ?_
  rw [State.drawn_getLsbD _ x y n hk, s.drawn_getLsbD x y n hk, s.drawn_drwCells n hx hy, Bool.xor_assoc,
    Bool.xor_self, Bool.xor_false]

/-- Settles O41: both drawings flip the same cells, and a cell the first set is 1 when the second flips it. -/
theorem drwTwiceRestoresTheScreen : Obligations.DrwTwiceRestoresTheScreen := by
  unfold Obligations.DrwTwiceRestoresTheScreen
  refine fun x y n s hx hy => ⟨_, _, exec_drw x y n s, exec_drw x y n _, s.drawn_drawn_fb n hx hy, ?_⟩
  rintro ⟨px, hpx, py, hpy, hzero, hone⟩
  rw [State.drawn_vf_eq_one_iff, s.drawn_drwCells n hx hy]
  exact ⟨_, s.mem_drwCells_of_cell_ne hpx hpy (by simp [hone, hzero]), hone⟩

end Sys2Proof.Machine
end

section
/-! SUPPORT. The random, keypad and timer instructions (R80 to R87): which key is held and which is the least, and what
writing the timers leaves unchanged. -/

namespace Sys2Proof.Machine

variable {s : State} {x : Reg}

/-! ### Keys -/

/-- A key number above 15 is of no key (R81, D16). -/
theorem State.keyHeld_iff (k : Byte) : s.keyHeld k = true ↔ k.toNat ≤ 15 ∧ s.keys.getLsbD k.toNat = true := by
  rw [State.keyHeld, Bool.and_eq_true, decide_eq_true_iff, BitVec.le_def, show (15 : Byte).toNat = 15 from rfl]

/-- Where some key is held, the search over the 16 keys finds one. -/
theorem leastKeyFrom_lt {keys : Word} (h : keys ≠ 0) : leastKeyFrom keys 0 16 < 16 := by
  obtain ⟨-, hle, -, hlow⟩ := leastKeyFrom_spec keys 0 16
  refine lt_of_le_of_ne hle fun h16 => h (BitVec.eq_of_getLsbD_eq fun k hk => ?_)
  exact (hlow k k.zero_le (hk.trans_eq h16.symm)).trans BitVec.getLsbD_zero.symm

theorem State.leastKey_toNat (h : s.keys ≠ 0) : s.leastKey.toNat = leastKeyFrom s.keys 0 16 :=
  (BitVec.toNat_ofNat ..).trans (Nat.mod_eq_of_lt ((leastKeyFrom_lt h).trans (by decide)))

/-- The least key is a key, it is held, and no lower one is (R84, D15). -/
theorem State.leastKey_spec (h : s.keys ≠ 0) : s.leastKey.toNat ≤ 15 ∧
    s.keys.getLsbD s.leastKey.toNat = true ∧ ∀ k < s.leastKey.toNat, s.keys.getLsbD k = false := by
  have hlt := leastKeyFrom_lt h
  obtain ⟨-, -, hheld, hlow⟩ := leastKeyFrom_spec s.keys 0 16
  rw [State.leastKey_toNat h]
  exact ⟨Nat.le_of_lt_succ hlt, hheld hlt, fun k => hlow k k.zero_le⟩

/-! ### LD Vx,K -/

theorem execLdVxK_waits (h : s.keys = 0) : execLdVxK x s = .next s := congrArg Host.Outcome.next (if_pos h)

theorem execLdVxK_held (h : s.keys ≠ 0) : execLdVxK x s = writeResult x s.leastKey s :=
  congrArg Host.Outcome.next (if_neg h)

/-- Settles O46: LD Vx,K writes the least key, and that is what the search over the 16 keys finds. -/
theorem ldVxKStoresTheLeastKey : Obligations.LdVxKStoresTheLeastKey := by
  unfold Obligations.LdVxKStoresTheLeastKey
  intro x s h
  obtain ⟨t, ht, hx, hrest⟩ := exec_writesResult (i := .ldVxK x) (execLdVxK_held h)
  obtain ⟨hle, hheld, hlow⟩ := State.leastKey_spec h
  rw [← hx] at hle hheld hlow
  exact ⟨t, ht, hle, hheld, hlow, hrest⟩

/-- Settles O45: with no key held the state is left as it is. -/
theorem ldVxKWaitsWithNoKey : Obligations.LdVxKWaitsWithNoKey := by
  unfold Obligations.LdVxKWaitsWithNoKey
  exact fun _ _ => execLdVxK_waits

/-! ### RND, SKP, SKNP -/

/-- Settles O42: RND writes its result and no flag. -/
theorem rndMasksTheDraw : Obligations.RndMasksTheDraw := by
  unfold Obligations.RndMasksTheDraw
  exact fun _ _ _ => exec_writesResult rfl

/-- Settles O43: both end in the skip rule, on the key being held and on its not being held. -/
theorem keySkipsReadTheMask : Obligations.KeySkipsReadTheMask := by
  unfold Obligations.KeySkipsReadTheMask
  intro x s
  have hheld := s.keyHeld_iff (s.reg x)
  have hnot := Bool.not_iff_not.trans (not_congr hheld)
  exact ⟨exec_skips rfl hheld, exec_skips rfl hnot⟩

/-! ### Timers -/

/-- What sets or counts a timer writes the timers, and `PC` where it is an instruction (R85 to R87). -/
theorem frame_setTimers (s : State) (pc : Word) (dt st : Byte) :
    Frame s { s with pc := pc, dt := dt, st := st } [] [.delayTimer, .soundTimer] := by
  refine ⟨fun _ _ => rfl, fun p hp => ?_⟩
  cases p
  case delayTimer | soundTimer => simp at hp
  case stackSlots | memory => exact fun _ => rfl
  case screen => exact ⟨rfl, rfl⟩
  case inputs => exact ⟨rfl, rfl, rfl⟩
  all_goals rfl

/-- Settles O44: the read writes a register and no flag; each write sets one timer, and a Tick leaves 0 at 0. -/
theorem timerMoves : Obligations.TimerMoves := by
  unfold Obligations.TimerMoves
  refine fun x s => ⟨exec_writesResult rfl, ⟨_, rfl, rfl, fun h0 => ?_, s.pcNext_toNat, ?_⟩,
    ⟨_, rfl, rfl, s.pcNext_toNat, ?_⟩⟩
  · exact (congrArg countDown h0).trans (if_pos rfl)
  · exact (frame_setTimers s s.pcNext (s.reg x) s.st).erase (q := .soundTimer) rfl
  · exact (frame_setTimers s s.pcNext s.dt (s.reg x)).erase (q := .delayTimer) rfl

/-- Settles O47: each timer counts down by `countDown`, and Tick writes nothing else. -/
theorem tickCountsBothTimersDown : Obligations.TickCountsBothTimersDown := by
  unfold Obligations.TickCountsBothTimersDown
  exact fun s _ => ⟨rfl, countDown_toNat s.dt, countDown_toNat s.st, rfl, frame_setTimers s s.pc _ _⟩

end Sys2Proof.Machine
end

section
/-! SUPPORT. Which steps latch a fault (R88 to R91), and that the entry of a fault is precise (R96). -/

namespace Sys2Proof.Machine

variable {s t : State} {i : Instr}

/-! ### Instructions that latch a fault -/

/-- Only RET with no frame and CALL with no room write `ERR`, and both do it by taking the fault (R90, R91). -/
theorem exec_err_cases (h : exec i s = .next t) :
    t.err = s.err ∨ (i = .ret ∧ s.sp = 0 ∧ t = s.takeFault .stackUnderflow) ∨
      (∃ nnn, i = .call nnn ∧ s.sp = 16 ∧ t = s.takeFault .stackOverflow) := by
  cases i
  case ret =>
    obtain ⟨h0, ht⟩ | ⟨-, a, -, rfl⟩ := execRet_cases h
    · exact .inr (.inl ⟨rfl, h0, ht⟩)
    · exact .inl rfl
  case call nnn =>
    obtain ⟨h16, ht⟩ | ⟨-, -, rfl⟩ := execCall_cases h
    · exact .inr (.inr ⟨nnn, rfl, h16, ht⟩)
    · exact .inl rfl
  all_goals left
  case ldVxK => obtain ⟨-, rfl⟩ | ⟨-, rfl⟩ := execLdVxK_cases h <;> rfl
  case ldB | ldMemVx => cases h; exact State.writeBytes_err ..
  all_goals cases h; rfl

/-- Settles O15: where `ERR` has changed, the case lemma leaves the two instructions that take a fault. -/
theorem onlyRetAndCallLatchFaults : Obligations.OnlyRetAndCallLatchFaults := by
  unfold Obligations.OnlyRetAndCallLatchFaults
  intro i s t h herr
  obtain hkept | ⟨hi, hsp, rfl⟩ | ⟨nnn, hi, hsp, rfl⟩ := exec_err_cases h
  · exact absurd hkept herr
  · exact .inl ⟨hi, hsp, rfl⟩
  · exact .inr ⟨nnn, hi, hsp, rfl⟩

/-! ### Steps that latch a fault -/

/-- Settles O12: the entry of a fault writes `ERR` alone. -/
theorem invalidOpcodeChangesOnlyTheLatch : Obligations.InvalidOpcodeChangesOnlyTheLatch := by
  unfold Obligations.InvalidOpcodeChangesOnlyTheLatch
  exact fun _ => instrStep_invalid

/-- A Step that latches a fault takes one of the three step faults, and does nothing else (R88, R96). -/
theorem instrStep_takesFault (hs : s.Running) (h : instrStep s = .next t) (ht : t.err ≠ .none) :
    ∃ cause ∈ [FaultCode.invalidOpcode, .stackOverflow, .stackUnderflow], t = s.takeFault cause := by
  obtain ⟨hhalted, -⟩ | ⟨-, -, hinvalid⟩ | ⟨-, i, -, hexec⟩ := instrStep_cases h
  · exact absurd hs hhalted
  · exact ⟨_, by decide, hinvalid⟩
  · obtain hkept | ⟨-, -, hunderflow⟩ | ⟨nnn, -, -, hoverflow⟩ := exec_err_cases hexec
    · exact absurd (hkept.trans hs) ht
    · exact ⟨_, by decide, hunderflow⟩
    · exact ⟨_, by decide, hoverflow⟩

theorem stepReply_faulted (hs : s.Running) (ht : t.err ≠ .none) :
    stepReply s t = .faulted t.err s.pc s.fetchWord := by
  rw [stepReply, if_neg (not_not.2 hs), if_pos ht]

/-- Settles O14: the Step is the entry of a fault, whose only write is the cause. -/
theorem faultsArePrecise : Obligations.FaultsArePrecise := by
  unfold Obligations.FaultsArePrecise
  intro s t hs h ht
  have hreply := stepReply_faulted hs ht
  obtain ⟨cause, hmem, rfl⟩ := instrStep_takesFault hs h ht
  exact ⟨rfl, hmem, hreply⟩

end Sys2Proof.Machine
end

section
/-! SUPPORT. The host's side of a run (70_reset_and_hazards.md): what each operation of the host answers before the first
Reset and after it, what lies between two Steps, and that a finished run stays finished. -/

namespace Sys2Proof.Machine

variable {s : State} {bytes : List Byte} {loaded : Bool}

/-! ### Before the first Reset -/

theorem hostStep_reset (c : HostedCore) : hostStep .reset c = .next (.live State.reset false, .nothing) := by
  cases c <;> rfl

theorem hostStep_neverReset {op : HostOp} (h : op ≠ .reset) : hostStep op .neverReset = .refused .beforeFirstReset := by
  cases op
  case reset => exact absurd rfl h
  all_goals rfl

/-- Settles O60: Reset answers the reset state on any core, and no other operation acts on a core never reset. -/
theorem onlyResetIsLegalBeforeReset : Obligations.OnlyResetIsLegalBeforeReset := by
  unfold Obligations.OnlyResetIsLegalBeforeReset
  exact fun _ => ⟨hostStep_reset .neverReset, hostStep_neverReset⟩

/-! ### What the operations do after it -/

theorem hostLoad_halted (h : s.err ≠ .none) : hostLoad bytes s loaded = .next (.live s loaded, .halted s.err) :=
  if_pos h

theorem hostLoad_late (h : s.Running) (hsteps : s.steps ≠ 0) :
    hostLoad bytes s loaded = .refused .loadAfterFirstStep := by
  rw [hostLoad, if_neg (not_not.2 h), if_pos hsteps]

/-- Before the first Step LoadProgram is refused only where a program has been loaded since Reset (D22). -/
theorem hostLoad_early (h : s.Running) (hsteps : s.steps = 0) : hostLoad bytes s loaded =
    if loaded then .refused .secondLoad else .next (.live (s.loadProgram bytes) true, loadReply s bytes) := by
  rw [hostLoad, if_neg (not_not.2 h), if_neg (not_not.2 hsteps)]

theorem hostLoad_second (h : s.Running) (hsteps : s.steps = 0) : hostLoad bytes s true = .refused .secondLoad :=
  hostLoad_early h hsteps

theorem hostLoad_first (h : s.Running) (hsteps : s.steps = 0) : hostLoad bytes s false =
    .next (.live (s.loadProgram bytes) true, if bytes.length ≤ 3584 then .loaded else .tooLarge bytes.length) := by
  rw [hostLoad_early h hsteps, loadReply_of_running h]
  rfl

/-- Settles O17: one clause for each operation, and for LoadProgram one for each of its branches. -/
theorem hostOperationsDoAsListed : Obligations.HostOperationsDoAsListed := by
  unfold Obligations.HostOperationsDoAsListed
  exact fun c s t loaded bytes k b => ⟨hostStep_reset c, rfl, hostLoad_first, hostLoad_halted, hostLoad_late,
    hostLoad_second, fun h => hostInstr_eq_next.2 ⟨t, h, rfl⟩⟩

/-! ### Legal values -/

theorem State.loadProgram_i (s : State) (bytes : List Byte) : (s.loadProgram bytes).i = s.i := by
  unfold State.loadProgram
  split_ifs <;> rfl

theorem State.loadProgram_sp (s : State) (bytes : List Byte) : (s.loadProgram bytes).sp = s.sp := by
  unfold State.loadProgram
  split_ifs <;> rfl

theorem State.loadProgram_inv (bytes : List Byte) (hs : s.Inv) : (s.loadProgram bytes).Inv := by
  obtain ⟨hi, hsp, hm⟩ := hs
  exact ⟨(s.loadProgram_i bytes).symm ▸ hi, (s.loadProgram_sp bytes).symm ▸ hsp, s.loadProgram_wf bytes hm⟩

/-- LoadProgram keeps legal values or is refused, and then no fault is latched and it comes after the first Step or
after another load (D22). -/
theorem hostLoad_keeps_inv_or_refused (bytes : List Byte) (loaded : Bool) (hs : s.Inv) :
    (∃ t loaded' reply, hostLoad bytes s loaded = .next (.live t loaded', reply) ∧ t.Inv) ∨
    (s.Running ∧ (s.steps ≠ 0 ∨ loaded = true) ∧ ∃ r, hostLoad bytes s loaded = .refused r) := by
  obtain ⟨-, h⟩ | ⟨hrun, hlate, h⟩ | ⟨hrun, -, hsecond, h⟩ | ⟨-, -, -, h⟩ := hostLoad_cases bytes s loaded
  · exact .inl ⟨s, loaded, _, h, hs⟩
  · exact .inr ⟨hrun, .inl hlate, _, h⟩
  · exact .inr ⟨hrun, .inr hsecond, _, h⟩
  · exact .inl ⟨_, true, _, h, State.loadProgram_inv bytes hs⟩

/-- From legal values the host's Step always answers, and keeps them: the inputs and the count are no part of them. -/
theorem hostInstr_keeps_inv (keys : Word) (rand : Byte) (loaded : Bool) (hs : s.Inv) :
    ∃ t reply, hostInstr keys rand s loaded = .next (.live t loaded, reply) ∧ t.Inv := by
  have hinputs : { s with keys := keys, rand := rand }.Inv := hs
  obtain ⟨-, hsp, -⟩ := hs
  obtain ⟨u, hu⟩ := instrStep_answers (s := { s with keys := keys, rand := rand }) hsp
  have huInv : u.Inv := instrStep_inv hu hinputs
  exact ⟨_, _, hostInstr_eq_next.2 ⟨u, hu, rfl⟩, huInv⟩

/-- Settles O51: on a core that has been reset only LoadProgram can be refused, and every other operation keeps legal
values. -/
theorem hostOperationsKeepLegalValues : Obligations.HostOperationsKeepLegalValues := by
  unfold Obligations.HostOperationsKeepLegalValues
  intro op c hc
  cases c with
  | neverReset =>
    by_cases hop : op = .reset
    · exact .inl ⟨_, _, _, hop ▸ hostStep_reset .neverReset, resetHoldsLegalValues⟩
    · exact .inr ⟨hop, _, hostStep_neverReset hop, .inl rfl⟩
  | live s loaded =>
    have hs : s.Inv := hc
    cases op with
    | reset => exact .inl ⟨_, _, _, hostStep_reset (.live s loaded), resetHoldsLegalValues⟩
    | loadProgram bytes =>
      obtain hkept | ⟨hrun, hlate, r, hr⟩ := hostLoad_keeps_inv_or_refused bytes loaded hs
      · exact .inl hkept
      · exact .inr ⟨nofun, r, hr, .inr ⟨bytes, s, loaded, rfl, rfl, hrun, hlate⟩⟩
    | step keys rand =>
      obtain ⟨t, reply, h, ht⟩ := hostInstr_keeps_inv keys rand loaded hs
      exact .inl ⟨t, loaded, reply, h, ht⟩
    | tick => exact .inl ⟨s.tick, loaded, _, rfl, hs⟩
    | clearDirty => exact .inl ⟨s.clearDirty, loaded, _, rfl, hs⟩

/-! ### Between two Steps -/

/-- Settles O11: both timers count down by the free number of Ticks, and FB_DIRTY is a conjunction with its old value. -/
theorem betweenStepsTicksClearsAndTakesInputs : Obligations.BetweenStepsTicksClearsAndTakesInputs := by
  unfold Obligations.BetweenStepsTicksClearsAndTakesInputs
  intro s t
  have hticks : t.dt.toNat = s.dt.toNat - Config.ticksAfter s.steps ∧
      t.st.toNat = s.st.toNat - Config.ticksAfter s.steps := ⟨countDownBy_toNat .., countDownBy_toNat ..⟩
  have hdirty : t.fbDirty = true → s.fbDirty = true := fun h => (Bool.and_eq_true_iff.1 h).1
  exact ⟨⟨_, hticks⟩, hdirty, rfl, rfl, rfl, rfl, rfl, frame_betweenSteps s⟩

/-! ### Finished runs -/

/-- The self-jump leaves `PC` where it is, and a jump writes nothing else (R108, R52). -/
theorem instrStep_finished {a : Addr} (h : s.FinishedAt a) : instrStep s = .next s := by
  obtain ⟨hpc, hrun, hword⟩ := h
  have hjp : decodeWord s.fetchWord = some (.jp a) := hword ▸ decodeWord_encode _
  have hself : s.jump (zextAddr a) = s := hpc ▸ rfl
  rw [instrStep_decoded hrun hjp]
  exact congrArg Host.Outcome.next hself

/-- Whether a run is finished is a matter of `PC`, `ERR` and memory, which the host leaves alone between two Steps. -/
theorem State.finishedAt_betweenSteps {a : Addr} : s.betweenSteps.FinishedAt a ↔ s.FinishedAt a := Iff.rfl

/-- Settles O57: the Step changes nothing, so what is left of `step` is what lies between two Steps. -/
theorem finishedStatesStayFinished : Obligations.FinishedStatesStayFinished := by
  unfold Obligations.FinishedStatesStayFinished
  intro s a h
  have hstep := instrStep_finished h
  exact ⟨hstep, s.betweenSteps, step_eq_next.2 ⟨s, hstep, rfl⟩, State.finishedAt_betweenSteps.2 h⟩

end Sys2Proof.Machine
end
